-- ==== Sys2Proof/Word.lean ====
section
/-! DEFINITION. The word types of the unit's ports and formats (10_state.md R20, 30_encoding.md R60,
42_float_common.md R160). Bit 0 is the least significant bit everywhere (00_scope.md R9). -/

namespace Sys2Proof

/-- The command word `cmd` (R20, R60). -/
abbrev Cmd := BitVec 16

/-- An operand port or a result port (R20). -/
abbrev Port := BitVec 64

/-- A binary32 pattern, or a 32-bit integer, carried on the low half of a port (R20, R160). -/
abbrev B32 := BitVec 32

end Sys2Proof
end

