-- ==== Sys2Proof/Syntax.lean ====
section
/-! DEFINITION. The operations of the unit: one constructor per row of spec/opcode_table.json (30_encoding.md R64). All
data arrives on the ports `a` and `b`; only the shifted multiplies carry an operand in the command, their fraction
width `f` (R60, R61). -/

namespace Sys2Proof

/-- One operation of the unit (R4, R64). -/
inductive Instr where
  /- unsigned divide with remainder (R106 to R109) -/
  | divu8 | divu16 | divu32 | divu64
  /- signed divide with remainder (R112 to R115) -/
  | divs8 | divs16 | divs32 | divs64
  /- full signed product (R133 to R135) -/
  | mul8 | mul16 | mul32
  /- low half of the signed product (R136 to R138) -/
  | mull8 | mull16 | mull32
  /- high half of the signed product (R139 to R141) -/
  | mulh8 | mulh16 | mulh32
  /- shifted product with fraction width `f` (R143 to R145) -/
  | mulq8 (f : BitVec 6) | mulq16 (f : BitVec 6) | mulq32 (f : BitVec 6)
  /- binary32 arithmetic (R190, R195, R198, R202, R207, R210) -/
  | fadd | fsub | fmul | fdiv | fneg | fcmp
  /- integer to binary32 (R231, R232) -/
  | itofU32 | itofS32
  /- binary32 to integer (R235, R236) -/
  | ftoiU32 | ftoiS32
  deriving DecidableEq, Repr

/-- The mnemonic of R64. -/
def Instr.mnemonic : Instr → String
  | .divu8 => "DIVU8" | .divu16 => "DIVU16" | .divu32 => "DIVU32" | .divu64 => "DIVU64"
  | .divs8 => "DIVS8" | .divs16 => "DIVS16" | .divs32 => "DIVS32" | .divs64 => "DIVS64"
  | .mul8 => "MUL8" | .mul16 => "MUL16" | .mul32 => "MUL32"
  | .mull8 => "MULL8" | .mull16 => "MULL16" | .mull32 => "MULL32"
  | .mulh8 => "MULH8" | .mulh16 => "MULH16" | .mulh32 => "MULH32"
  | .mulq8 _ => "MULQ8" | .mulq16 _ => "MULQ16" | .mulq32 _ => "MULQ32"
  | .fadd => "FADD" | .fsub => "FSUB" | .fmul => "FMUL" | .fdiv => "FDIV" | .fneg => "FNEG" | .fcmp => "FCMP"
  | .itofU32 => "ITOF.U32" | .itofS32 => "ITOF.S32"
  | .ftoiU32 => "FTOI.U32" | .ftoiS32 => "FTOI.S32"

/-- The fraction width a command carries in `cmd[13:8]`; 0 for every operation but the shifted multiplies (R60). -/
def Instr.fraction : Instr → BitVec 6
  | .mulq8 f => f
  | .mulq16 f => f
  | .mulq32 f => f
  | .divu8 | .divu16 | .divu32 | .divu64 | .divs8 | .divs16 | .divs32 | .divs64
  | .mul8 | .mul16 | .mul32 | .mull8 | .mull16 | .mull32 | .mulh8 | .mulh16 | .mulh32
  | .fadd | .fsub | .fmul | .fdiv | .fneg | .fcmp | .itofU32 | .itofS32 | .ftoiU32 | .ftoiS32 => 0#6

/-- The operand width W that an operation names (R6, R60, R63). -/
def Instr.width : Instr → Nat
  | .divu8 | .divs8 | .mul8 | .mull8 | .mulh8 | .mulq8 _ => 8
  | .divu16 | .divs16 | .mul16 | .mull16 | .mulh16 | .mulq16 _ => 16
  | .divu64 | .divs64 => 64
  | .divu32 | .divs32 | .mul32 | .mull32 | .mulh32 | .mulq32 _
  | .fadd | .fsub | .fmul | .fdiv | .fneg | .fcmp | .itofU32 | .itofS32 | .ftoiU32 | .ftoiS32 => 32

/-- Whether an operation reads `b` (the table of R31). -/
def Instr.readsB : Instr → Bool
  | .fneg | .itofU32 | .itofS32 | .ftoiU32 | .ftoiS32 => false
  | .divu8 | .divu16 | .divu32 | .divu64 | .divs8 | .divs16 | .divs32 | .divs64
  | .mul8 | .mul16 | .mul32 | .mull8 | .mull16 | .mull32 | .mulh8 | .mulh16 | .mulh32
  | .mulq8 _ | .mulq16 _ | .mulq32 _ | .fadd | .fsub | .fmul | .fdiv | .fcmp => true

/-- How many low bits of `res0` an operation drives (the table of R31). -/
def Instr.res0Width : Instr → Nat
  | .mul8 => 16
  | .mul16 => 32
  | .mul32 => 64
  | .divu8 | .divs8 | .mull8 | .mulh8 | .mulq8 _ => 8
  | .divu16 | .divs16 | .mull16 | .mulh16 | .mulq16 _ => 16
  | .divu64 | .divs64 => 64
  | .divu32 | .divs32 | .mull32 | .mulh32 | .mulq32 _
  | .fadd | .fsub | .fmul | .fdiv | .fneg | .fcmp | .itofU32 | .itofS32 | .ftoiU32 | .ftoiS32 => 32

/-- How many low bits of `res1` an operation drives: the remainder of a divide, nothing otherwise (R31). -/
def Instr.res1Width : Instr → Nat
  | .divu8 | .divs8 => 8
  | .divu16 | .divs16 => 16
  | .divu32 | .divs32 => 32
  | .divu64 | .divs64 => 64
  | .mul8 | .mul16 | .mul32 | .mull8 | .mull16 | .mull32 | .mulh8 | .mulh16 | .mulh32
  | .mulq8 _ | .mulq16 _ | .mulq32 _ | .fadd | .fsub | .fmul | .fdiv | .fneg | .fcmp
  | .itofU32 | .itofS32 | .ftoiU32 | .ftoiS32 => 0

end Sys2Proof
end

