-- ==== Sys2Proof/WellFormed.lean ====
section
/-! DEFINITION. Which operations have a command (30_encoding.md R62, R64): the fraction width of a shifted multiply
stays below 2W. For MULQ32 every value of the 6-bit field does. -/

namespace Sys2Proof

/-- `f < 2W` for the shifted multiplies; every other operation is well formed as it stands. -/
def WellFormed : Instr → Bool
  | .mulq8 f => decide (f.toNat < 16)
  | .mulq16 f => decide (f.toNat < 32)
  | .mulq32 _ => true
  | .divu8 | .divu16 | .divu32 | .divu64 | .divs8 | .divs16 | .divs32 | .divs64
  | .mul8 | .mul16 | .mul32 | .mull8 | .mull16 | .mull32 | .mulh8 | .mulh16 | .mulh32
  | .fadd | .fsub | .fmul | .fdiv | .fneg | .fcmp | .itofU32 | .itofS32 | .ftoiU32 | .ftoiS32 => true

end Sys2Proof
end

