-- ==== Sys2Proof/Decode.lean ====
section
/-! DEFINITION. The decode function of 30_encoding.md R62, total on every 16-bit command and rejecting by name, and
after it the encoder and the opcode map of R64. -/

namespace Sys2Proof

/-- Why a command spells no operation (R62, R65). -/
inductive Reject where
  /-- `cmd[7] = 1` or `cmd[15:14] ≠ 00`. -/
  | reservedBits
  /-- `func` is 0x5, 0x6 or 0x7. -/
  | reservedFunction
  /-- `sg` is not one that the function admits. -/
  | signedness
  /-- `wc` is not one that the function admits. -/
  | width
  /-- `f` is not zero, or for a shifted multiply not below 2W. -/
  | fraction
  deriving DecidableEq, Repr

/-- `cmd[3:0]` (R60). -/
def cmdFunc (cmd : Cmd) : BitVec 4 := cmd.extractLsb' 0 4

/-- `cmd[5:4]` (R60). -/
def cmdWc (cmd : Cmd) : BitVec 2 := cmd.extractLsb' 4 2

/-- `cmd[6]` (R60). -/
def cmdSg (cmd : Cmd) : Bool := cmd.getLsbD 6

/-- `cmd[7]` (R60). -/
def cmdRsv0 (cmd : Cmd) : Bool := cmd.getLsbD 7

/-- `cmd[13:8]` (R60). -/
def cmdF (cmd : Cmd) : BitVec 6 := cmd.extractLsb' 8 6

/-- `cmd[15:14]` (R60). -/
def cmdRsv1 (cmd : Cmd) : BitVec 2 := cmd.extractLsb' 14 2

/-- A divide, by signedness and width code: every width is admitted (R63). -/
def decodeDivide (wc : BitVec 2) (sg : Bool) : Instr :=
  match sg, wc with
  | false, 0#2 => .divu8
  | false, 1#2 => .divu16
  | false, 2#2 => .divu32
  | false, _ => .divu64
  | true, 0#2 => .divs8
  | true, 1#2 => .divs16
  | true, 2#2 => .divs32
  | true, _ => .divs64

/-- The one of three operations that a width code names, where 64-bit operands are not admitted (R63). -/
def selectWidth (wc : BitVec 2) (w8 w16 w32 : Instr) : Except Reject Instr :=
  match wc with
  | 0#2 => .ok w8
  | 1#2 => .ok w16
  | 2#2 => .ok w32
  | _ => .error .width

/-- A multiply without a fraction width: signed only, at 8, 16 and 32 bits (R62, R63). -/
def decodeMultiply (wc : BitVec 2) (sg : Bool) (f : BitVec 6) (w8 w16 w32 : Instr) : Except Reject Instr :=
  if sg = false then .error .signedness
  else if f ≠ 0#6 then .error .fraction
  else selectWidth wc w8 w16 w32

/-- A shifted multiply: signed only, at 8, 16 and 32 bits, with `f < 2W` (R62, R63). -/
def decodeShifted (wc : BitVec 2) (sg : Bool) (f : BitVec 6) : Except Reject Instr :=
  if sg = false then .error .signedness
  else
    match selectWidth wc (.mulq8 f) (.mulq16 f) (.mulq32 f) with
    | .ok i => if WellFormed i then .ok i else .error .fraction
    | .error r => .error r

/-- A binary32 operation or a conversion: `wc = 10` and `f = 0` (R62, R63). -/
def decodeFloat (wc : BitVec 2) (f : BitVec 6) (i : Except Reject Instr) : Except Reject Instr :=
  if wc ≠ 2#2 then .error .width
  else if f ≠ 0#6 then .error .fraction
  else i

/-- An operation that admits `sg = 0` only (R63). -/
def unsignedOnly (sg : Bool) (i : Instr) : Except Reject Instr :=
  if sg then .error .signedness else .ok i

/-- The decode function of R62. -/
def decode (cmd : Cmd) : Except Reject Instr :=
  let wc := cmdWc cmd
  let sg := cmdSg cmd
  let f := cmdF cmd
  if cmdRsv0 cmd ∨ cmdRsv1 cmd ≠ 0#2 then .error .reservedBits
  else
    match cmdFunc cmd with
    | 0x0#4 => if f ≠ 0#6 then .error .fraction else .ok (decodeDivide wc sg)
    | 0x1#4 => decodeMultiply wc sg f .mul8 .mul16 .mul32
    | 0x2#4 => decodeMultiply wc sg f .mull8 .mull16 .mull32
    | 0x3#4 => decodeMultiply wc sg f .mulh8 .mulh16 .mulh32
    | 0x4#4 => decodeShifted wc sg f
    | 0x8#4 => decodeFloat wc f (unsignedOnly sg .fadd)
    | 0x9#4 => decodeFloat wc f (unsignedOnly sg .fsub)
    | 0xA#4 => decodeFloat wc f (unsignedOnly sg .fmul)
    | 0xB#4 => decodeFloat wc f (unsignedOnly sg .fdiv)
    | 0xC#4 => decodeFloat wc f (unsignedOnly sg .fneg)
    | 0xD#4 => decodeFloat wc f (unsignedOnly sg .fcmp)
    | 0xE#4 => decodeFloat wc f (.ok (if sg then .itofS32 else .itofU32))
    | 0xF#4 => decodeFloat wc f (.ok (if sg then .ftoiS32 else .ftoiU32))
    | _ => .error .reservedFunction

/-- A command spells an operation (R62). -/
def isLegal (cmd : Cmd) : Bool :=
  match decode cmd with
  | .ok _ => true
  | .error _ => false

/-- The instruction whose table bits are `w` (bit 0 the least significant bit of the one 16-bit command word). -/
def decodeTableWord (nbits w : Nat) : Option Instr :=
  match decode (BitVec.ofNat 16 (w % 2 ^ nbits)) with
  | .ok i => some i
  | .error _ => none

/-- The command word put together from its fields, the reserved ones zero (R60). -/
def cmdWord (func : BitVec 4) (wc : BitVec 2) (sg : Bool) (f : BitVec 6) : Cmd :=
  (0#2 ++ f ++ 0#1 ++ BitVec.ofBool sg ++ wc ++ func : BitVec (2 + 6 + 1 + 1 + 2 + 4))

/-- The command of an operation, from the function codes and width codes of R60 and R63. -/
def encode : Instr → Cmd
  | .divu8 => cmdWord 0x0#4 0#2 false 0#6
  | .divu16 => cmdWord 0x0#4 1#2 false 0#6
  | .divu32 => cmdWord 0x0#4 2#2 false 0#6
  | .divu64 => cmdWord 0x0#4 3#2 false 0#6
  | .divs8 => cmdWord 0x0#4 0#2 true 0#6
  | .divs16 => cmdWord 0x0#4 1#2 true 0#6
  | .divs32 => cmdWord 0x0#4 2#2 true 0#6
  | .divs64 => cmdWord 0x0#4 3#2 true 0#6
  | .mul8 => cmdWord 0x1#4 0#2 true 0#6
  | .mul16 => cmdWord 0x1#4 1#2 true 0#6
  | .mul32 => cmdWord 0x1#4 2#2 true 0#6
  | .mull8 => cmdWord 0x2#4 0#2 true 0#6
  | .mull16 => cmdWord 0x2#4 1#2 true 0#6
  | .mull32 => cmdWord 0x2#4 2#2 true 0#6
  | .mulh8 => cmdWord 0x3#4 0#2 true 0#6
  | .mulh16 => cmdWord 0x3#4 1#2 true 0#6
  | .mulh32 => cmdWord 0x3#4 2#2 true 0#6
  | .mulq8 f => cmdWord 0x4#4 0#2 true f
  | .mulq16 f => cmdWord 0x4#4 1#2 true f
  | .mulq32 f => cmdWord 0x4#4 2#2 true f
  | .fadd => cmdWord 0x8#4 2#2 false 0#6
  | .fsub => cmdWord 0x9#4 2#2 false 0#6
  | .fmul => cmdWord 0xA#4 2#2 false 0#6
  | .fdiv => cmdWord 0xB#4 2#2 false 0#6
  | .fneg => cmdWord 0xC#4 2#2 false 0#6
  | .fcmp => cmdWord 0xD#4 2#2 false 0#6
  | .itofU32 => cmdWord 0xE#4 2#2 false 0#6
  | .itofS32 => cmdWord 0xE#4 2#2 true 0#6
  | .ftoiU32 => cmdWord 0xF#4 2#2 false 0#6
  | .ftoiS32 => cmdWord 0xF#4 2#2 true 0#6

/-- One row of the opcode map of R64. -/
structure OpcodeRow where
  mnemonic : String
  pattern : Cmd
  mask : Cmd
  deriving DecidableEq, Repr

/-- A command selects the row whose `(cmd and mask) == match` (R64). -/
def OpcodeRow.selects (row : OpcodeRow) (cmd : Cmd) : Bool := cmd &&& row.mask == row.pattern

/-- The divide rows of R64. -/
def divideRows : List OpcodeRow :=
  [⟨"DIVU8", 0x0000#16, 0xFFFF#16⟩, ⟨"DIVU16", 0x0010#16, 0xFFFF#16⟩, ⟨"DIVU32", 0x0020#16, 0xFFFF#16⟩,
   ⟨"DIVU64", 0x0030#16, 0xFFFF#16⟩, ⟨"DIVS8", 0x0040#16, 0xFFFF#16⟩, ⟨"DIVS16", 0x0050#16, 0xFFFF#16⟩,
   ⟨"DIVS32", 0x0060#16, 0xFFFF#16⟩, ⟨"DIVS64", 0x0070#16, 0xFFFF#16⟩]

/-- The multiply rows of R64. -/
def multiplyRows : List OpcodeRow :=
  [⟨"MUL8", 0x0041#16, 0xFFFF#16⟩, ⟨"MUL16", 0x0051#16, 0xFFFF#16⟩, ⟨"MUL32", 0x0061#16, 0xFFFF#16⟩,
   ⟨"MULL8", 0x0042#16, 0xFFFF#16⟩, ⟨"MULL16", 0x0052#16, 0xFFFF#16⟩, ⟨"MULL32", 0x0062#16, 0xFFFF#16⟩,
   ⟨"MULH8", 0x0043#16, 0xFFFF#16⟩, ⟨"MULH16", 0x0053#16, 0xFFFF#16⟩, ⟨"MULH32", 0x0063#16, 0xFFFF#16⟩,
   ⟨"MULQ8", 0x0044#16, 0xF0FF#16⟩, ⟨"MULQ16", 0x0054#16, 0xE0FF#16⟩, ⟨"MULQ32", 0x0064#16, 0xC0FF#16⟩]

/-- The binary32 rows of R64. -/
def floatRows : List OpcodeRow :=
  [⟨"FADD", 0x0028#16, 0xFFFF#16⟩, ⟨"FSUB", 0x0029#16, 0xFFFF#16⟩, ⟨"FMUL", 0x002A#16, 0xFFFF#16⟩,
   ⟨"FDIV", 0x002B#16, 0xFFFF#16⟩, ⟨"FNEG", 0x002C#16, 0xFFFF#16⟩, ⟨"FCMP", 0x002D#16, 0xFFFF#16⟩]

/-- The conversion rows of R64. -/
def convertRows : List OpcodeRow :=
  [⟨"ITOF.U32", 0x002E#16, 0xFFFF#16⟩, ⟨"ITOF.S32", 0x006E#16, 0xFFFF#16⟩,
   ⟨"FTOI.U32", 0x002F#16, 0xFFFF#16⟩, ⟨"FTOI.S32", 0x006F#16, 0xFFFF#16⟩]

/-- The opcode map of R64. -/
def opcodeRows : List OpcodeRow := divideRows ++ multiplyRows ++ floatRows ++ convertRows

end Sys2Proof
end

