-- ==== Sys2Proof/Config.lean ====
section
/-! DEFINITION. The implementation parameters of 00_scope.md R8. Each is fixed when a unit is built and the source
leaves it open, so each is a constant with no body: whatever is proved holds for every value of it. -/

namespace Sys2Proof

/-- How a value is rounded to an integer significand (R12, R166): `nearestEven` is the spec's RNE, `towardZero` its
RTZ. It is also the domain of `FDIV_ROUND` (R8). -/
inductive Rounding where
  | nearestEven
  | towardZero
  deriving DecidableEq, Repr, Inhabited

/-- The domain of `UNDERFLOW` (R8, R167). -/
inductive Underflow where
  | flushToZero
  | gradual
  deriving DecidableEq, Repr, Inhabited

/-- `FDIV_ROUND` (R8, R168): how FDIV rounds its quotient (log 7). -/
opaque Config.fdivRound : Rounding

/-- `UNDERFLOW` (R8, R167): what a result below the normal range becomes (log 8). -/
opaque Config.underflow : Underflow

/-- The bits of `QNAN(cmd, a, b)` that R172 leaves open: its sign (bit 22 here) and its bits 21:0. A function of the
request's command and of the 32-bit operands that R31 lets it read (log 9). -/
opaque Config.qnanFreeBits : Cmd → B32 → B32 → BitVec 23

/-- `FTOI_OOB(cmd, a)` (R8, R234): the result of a conversion out of range, any 32-bit value (log 10). -/
opaque Config.ftoiOob : Cmd → B32 → B32

/-- `ILLEGAL_RES` (R8, R11, R62): the `n`-th draw of the two result words that stand beside `illegal = 1` (log 11). -/
opaque Config.illegalRes : Nat → Port × Port

/-- `LAT(cmd)` less one (log 12). -/
opaque Config.latencyLessOne : Cmd → Nat

/-- `LAT(cmd) ≥ 1` (R8, R290): the latency of an operation, a function of the command alone. The model represents no
time, so no step reads it (log 12). -/
def Config.latency (cmd : Cmd) : Nat := Config.latencyLessOne cmd + 1

end Sys2Proof
end

