-- ==== Sys2Proof/Machine/State.lean ====
section
/-! DEFINITION. The machine's state as plain data: the request port, the response port and what stands on them
(10_state.md R20 to R22). The unit has no register, flag, program counter, memory or trap state (R23 to R27, R40,
R251), so there is nothing else to hold. -/

namespace Sys2Proof.Machine

/-- One response: the three values the unit gives together (R20, R21). -/
structure Response where
  /-- quotient, product, float result, comparison code or converted value -/
  res0 : Port
  /-- the remainder of a divide; zero for every other operation -/
  res1 : Port
  /-- 1 when the command spells no operation -/
  illegal : Bool
  deriving DecidableEq, Repr

/-- The state of the unit and its ports. -/
structure State where
  /-- request port: the command word (R20, R60) -/
  cmd : Cmd
  /-- request port: first operand (R20) -/
  a : Port
  /-- request port: second operand (R20) -/
  b : Port
  /-- a request stands at the port and has not been taken (R280, R285; log 1) -/
  requested : Bool
  /-- reset is being asserted from outside (R281; log 4) -/
  resetAsserted : Bool
  /-- the response the unit is giving, `none` when it gives none (R20 to R22; log 2) -/
  response : Option Response
  deriving DecidableEq, Repr

/-- Why the machine stops. -/
inductive Fault where
  /-- Raised by `step` when the requested command spells no operation (R62, R252 name this fault). Safe: the spec gives
  the model this stop; the ports then carry `illegal = 1` and a draw (`illegalResponse`). -/
  | illegalCommand (cmd : Cmd)
  deriving DecidableEq, Repr

/-- Why an instruction has no meaning. No arm of `exec` answers with it: every operation has its meaning. -/
inductive Refusal where
  /-- Raised by an arm of `exec` whose instruction is not modelled yet, by its mnemonic. Safe: it stops the machine. -/
  | notModelled (mnemonic : String)
  deriving DecidableEq, Repr

/-- The machine right after reset: ready to accept a request, none in progress, no response given (R280, R281). The
spec gives the request port no value, since the requester drives it; 0 is the model's (log 3). -/
def State.reset : State where
  cmd := 0#16
  a := 0#64
  b := 0#64
  requested := false
  resetAsserted := false
  response := none

end Sys2Proof.Machine
end

