-- ==== Sys2Proof/Machine/Operands.lean ====
section
/-! DEFINITION. The operand forms of the unit: the low W bits of a port, the magnitude of a two's-complement pattern, and
a result zero-filled to its port (00_scope.md R9, R10; 10_state.md R31; 20_memory.md R44). -/

namespace Sys2Proof.Machine

/-- The low `W` bits of a port: the W-bit operand it carries (R31, R61). -/
def lowBits (W : Nat) (p : Port) : BitVec W := p.setWidth W

/-- The operand on `a` at width `W` (R20, R31). -/
def State.operandA (s : State) (W : Nat) : BitVec W := lowBits W s.a

/-- The operand on `b` at width `W` (R20, R31). -/
def State.operandB (s : State) (W : Nat) : BitVec W := lowBits W s.b

/-- `zext_64`: a result on its port, zeros above (R10, R31). -/
def toPort {W : Nat} (v : BitVec W) : Port := v.setWidth 64

/-- Unsigned negation where `neg` is 1: `(0 − u(v)) mod 2^W` (R10, R110). -/
def negateIf {W : Nat} (neg : Bool) (v : BitVec W) : BitVec W := if neg then 0#W - v else v

/-- The magnitude of a two's-complement pattern by unsigned negation, so that the minimum value has its exact
magnitude (R110, R232). -/
def magnitude {W : Nat} (v : BitVec W) : BitVec W := negateIf v.msb v

end Sys2Proof.Machine
end

