-- ==== Sys2Proof/Machine/Ops.lean ====
section
/-! DEFINITION. The named operations over the ports: presenting a request, giving a response, the response to an illegal
command, having nothing to do, and reset (00_scope.md R11; 10_state.md R20 to R22; 70_reset_and_hazards.md R280, R281).
There is no operation that takes an exception and none that returns from one: the unit has no trap entry and no
return (60_exceptions.md R250, R255, R256). There is no memory operation (20_memory.md R40). -/

namespace Sys2Proof.Machine

/-- A request: what the requester puts on the port (R20). -/
structure Request where
  cmd : Cmd
  a : Port
  b : Port
  deriving DecidableEq, Repr

/-- The outcome type of a step. -/
abbrev Result := Host.Outcome State Fault Refusal

/-- The requester puts a request on the port (R20, R285). DESIGN CHOICE, unsafe (log 15): where a request still stands
there, not yet taken, the new one replaces it and the replaced one gets no response. The spec gives no handshake that
says what becomes of it (91_not_in_source.md N2); R285 only makes holding a request until it is taken the requester's
duty. Two requests of which the first is taken before the second is presented are both answered (R256). -/
def State.present (s : State) (r : Request) : State :=
  { s with cmd := r.cmd, a := r.a, b := r.b, requested := true }

/-- Reset is asserted from outside (R281). -/
def State.assertReset (s : State) : State := { s with resetAsserted := true }

/-- `respond(r0, r1)`: the operation ends, its request is taken, and the response stands on the port with
`illegal = 0` (R11, R21). Nothing else changes. -/
def State.respond (s : State) (r0 r1 : Port) : State :=
  { s with requested := false, response := some { res0 := r0, res1 := r1, illegal := false } }

/-- `respond_illegal()`: the response to a command that spells no operation, its result words the given draw of
`ILLEGAL_RES` (R11, R62). -/
def illegalResponse (draw : Nat) : Response where
  res0 := (Config.illegalRes draw).1
  res1 := (Config.illegalRes draw).2
  illegal := true

/-- That response standing on the port: the request is over and nothing else changes (R252). `step` answers such a
command with a fault; this is what the ports show beside it, and where the requester's next request finds the unit. -/
def State.respondIllegal (s : State) (draw : Nat) : State :=
  { s with requested := false, response := some (illegalResponse draw) }

/-- No request stands: the unit waits, and the response it gave, if any, is over (R22, R280; log 5). -/
def State.idle (s : State) : State := { s with response := none }

/-- What reset leaves, whatever was in progress: no response is given to a request in progress (R281). -/
def State.afterReset (_ : State) : State := State.reset

/-- An operation ends with its one response. -/
def complete (s : State) (r0 r1 : Port) : Result := .next (s.respond r0 r1)

end Sys2Proof.Machine
end

