-- ==== Sys2Proof/Machine/FloatCommon.lean ====
section
/-! DEFINITION. The binary32 format, the classifier and normaliser, exact values, rounding, packing and the quiet NaN
(42_float_common.md). Exact values are kept in integers: every finite pattern is a whole number of units of 2^-149
(R162), and a magnitude to be rounded is a fraction of two natural numbers (log 13). -/

namespace Sys2Proof.Machine

/-- `sgn(x) = x[31]` (R160). -/
def sgn (x : B32) : Bool := x.getLsbD 31

/-- `expf(x) = x[30:23]` (R160). -/
def expf (x : B32) : BitVec 8 := x.extractLsb' 23 8

/-- `frac(x) = x[22:0]` (R160). -/
def frac (x : B32) : BitVec 23 := x.extractLsb' 0 23

/-- The pattern with the given sign, exponent field and significand field (R160). -/
def ofFields (s : Bool) (e : BitVec 8) (m : BitVec 23) : B32 :=
  (BitVec.ofBool s ++ e ++ m : BitVec (1 + 8 + 23))

/-- A zero with sign `s`: `s << 31`. -/
def signedZero (s : Bool) : B32 := ofFields s 0#8 0#23

/-- An infinity with sign `s`: `(s << 31) | 0x7F800000`. -/
def signedInf (s : Bool) : B32 := ofFields s 0xFF#8 0#23

/-- The class of a pattern (R161). -/
inductive FloatClass where
  | zero (sign : Bool)
  | subnormal (sign : Bool) (frac : BitVec 23)
  | normal (sign : Bool) (expf : BitVec 8) (frac : BitVec 23)
  | inf (sign : Bool)
  | nan (sign : Bool) (quiet : Bool) (payload : BitVec 23)
  deriving DecidableEq, Repr

/-- The classifier of R161; a NaN is quiet when bit 22 is 1 (R164). -/
def classify (x : B32) : FloatClass :=
  if expf x = 0#8 then
    if frac x = 0#23 then .zero (sgn x) else .subnormal (sgn x) (frac x)
  else if expf x = 0xFF#8 then
    if frac x = 0#23 then .inf (sgn x) else .nan (sgn x) (x.getLsbD 22) (frac x)
  else .normal (sgn x) (expf x) (frac x)

/-- A zero of either sign. -/
def isZero (x : B32) : Bool :=
  match classify x with
  | .zero _ => true
  | .subnormal _ _ | .normal _ _ _ | .inf _ | .nan _ _ _ => false

/-- An infinity of either sign. -/
def isInf (x : B32) : Bool :=
  match classify x with
  | .inf _ => true
  | .zero _ | .subnormal _ _ | .normal _ _ _ | .nan _ _ _ => false

/-- A NaN, quiet or signalling: the unit treats both alike (R165). -/
def isNaN (x : B32) : Bool :=
  match classify x with
  | .nan _ _ _ => true
  | .zero _ | .subnormal _ _ | .normal _ _ _ | .inf _ => false

/-- A quiet NaN (R164). -/
def isQuietNaN (x : B32) : Bool :=
  match classify x with
  | .nan _ quiet _ => quiet
  | .zero _ | .subnormal _ _ | .normal _ _ _ | .inf _ => false

/-- Zero, Subnormal or Normal (R161). -/
def isFinite (x : B32) : Bool := !isInf x && !isNaN x

/-- The normaliser of R163: a 24-bit significand with its leading bit set and an unbounded exponent, for a Normal or
Subnormal pattern. -/
def normalise (x : B32) : Option (Nat × Int) :=
  match classify x with
  | .normal _ e f => some (2 ^ 23 + f.toNat, (e.toNat : Int) - 127)
  | .subnormal _ f =>
    let k := 23 - Nat.log2 f.toNat
    some (f.toNat <<< k, -126 - (k : Int))
  | .zero _ | .inf _ | .nan _ _ _ => none

/-- `|val(x)|` of a finite pattern in units of 2^-149 (R162): `(2^23 + frac)·2^(expf − 150)` is
`(2^23 + frac)·2^(expf − 1)` units. -/
def unitsAbs (x : B32) : Nat :=
  match classify x with
  | .subnormal _ f => f.toNat
  | .normal _ e f => (2 ^ 23 + f.toNat) <<< (e.toNat - 1)
  | .zero _ | .inf _ | .nan _ _ _ => 0

/-- `val(x)` of a finite pattern in units of 2^-149 (R162). -/
def units (x : B32) : Int := if sgn x then -(unitsAbs x : Int) else unitsAbs x

/-- A non-negative rational as a fraction; the denominator is positive wherever one is used. -/
structure Ratio where
  num : Nat
  den : Nat
  deriving DecidableEq, Repr

/-- A number of units of 2^-149 as a magnitude. -/
def Ratio.ofUnits (u : Nat) : Ratio := { num := u, den := 2 ^ 149 }

/-- `v · 2^k`. -/
def Ratio.scale (v : Ratio) (k : Int) : Ratio :=
  if 0 ≤ k then { num := v.num <<< k.toNat, den := v.den }
  else { num := v.num, den := v.den <<< (-k).toNat }

/-- `1 ≤ v`. -/
def Ratio.atLeastOne (v : Ratio) : Bool := decide (v.den ≤ v.num)

/-- `floor(log2(v))` of a positive magnitude: the lengths of numerator and denominator give it up to one (R167). -/
def Ratio.floorLog2 (v : Ratio) : Int :=
  let k : Int := (Nat.log2 v.num : Int) - (Nat.log2 v.den : Int)
  if (v.scale (-k)).atLeastOne then k else k - 1

/-- `round(v, m)` of R166: nearest with ties to even, or toward zero. -/
def Ratio.round (v : Ratio) (m : Rounding) : Nat :=
  let low := v.num / v.den
  let rest := v.num % v.den
  match m with
  | .towardZero => low
  | .nearestEven =>
    if 2 * rest < v.den then low
    else if v.den < 2 * rest then low + 1
    else if low % 2 = 0 then low else low + 1

/-- The end of packing (R167, R170): from a significand of at most 2^24 rounded at exponent `e` to the pattern. A carry
moves to the next exponent, a biased exponent of 255 or more gives an infinity, one of 0 or less is flushed. -/
def packRounded (s : Bool) (M : Nat) (e : Int) : B32 :=
  let carry : Bool := M == 2 ^ 24
  let M' : Nat := if carry then 2 ^ 23 else M
  let E : Int := (if carry then e + 1 else e) + 127
  if 255 ≤ E then signedInf s
  else if E ≤ 0 then signedZero s
  else ofFields s (BitVec.ofInt 8 E) (BitVec.ofNat 23 (M' - 2 ^ 23))

/-- The pattern `(s << 31) | M` of a result at subnormal precision; `M = 2^23` is the smallest normal (R167). -/
def packSubnormal (s : Bool) (M : Nat) : B32 :=
  (BitVec.ofBool s ++ BitVec.ofNat 31 M : BitVec (1 + 31))

/-- `round_pack(s, v, m)` of R167 under the parameter `UNDERFLOW`. -/
def roundPack (uf : Underflow) (m : Rounding) (s : Bool) (v : Ratio) : B32 :=
  let e := v.floorLog2
  if e < -126 ∧ uf = .gradual then packSubnormal s ((v.scale 149).round m)
  else packRounded s ((v.scale (23 - e)).round m) e

/-- `QNAN(cmd, a, b)` (R172): exponent 0xFF and bit 22 set, the other bits the parameter's (log 9). -/
def qnan (cmd : Cmd) (a b : B32) : B32 :=
  let free := Config.qnanFreeBits cmd a b
  ofFields (free.getLsbD 22) 0xFF#8 (1#1 ++ free.extractLsb' 0 22 : BitVec (1 + 22))

end Sys2Proof.Machine
end

