-- ==== Sys2Proof/Machine/Convert.lean ====
section
/-! DEFINITION. The integer and binary32 conversions (44_conversions.md). Each reads `a[31:0]` only. -/

namespace Sys2Proof.Machine

/-- The binary32 nearest to an integer of sign `s` and magnitude `m` (R230 to R232); a zero integer gives +0. -/
def intToFloat (uf : Underflow) (s : Bool) (m : Nat) : B32 :=
  if m = 0 then signedZero false else roundPack uf .nearestEven s { num := m, den := 1 }

/-- `trunc(val(x))` of a finite pattern (R234). -/
def truncToInt (x : B32) : Int := (units x).tdiv (2 ^ 149)

/-- FTOI into the integers from `lo` to `hi` (R234): the range is tested on the truncated value, and `oob` stands for
`FTOI_OOB(cmd, a)`. -/
def floatToInt (oob : B32) (lo hi : Int) (x : B32) : B32 :=
  if isNaN x ∨ isInf x then oob
  else
    let t := truncToInt x
    if lo ≤ t ∧ t ≤ hi then BitVec.ofInt 32 t else oob

/-- A conversion to an integer gives its response (R235, R236; log 10). -/
def completeFtoi (i : Instr) (lo hi : Int) (s : State) : Result :=
  let a := s.operandA 32
  complete s (toPort (floatToInt (Config.ftoiOob (encode i) a) lo hi a)) 0#64

/-- ITOF.U32 (R231). -/
def execItofU32 (s : State) : Result :=
  complete s (toPort (intToFloat Config.underflow false (s.operandA 32).toNat)) 0#64

/-- ITOF.S32 (R232): the magnitude by unsigned negation. -/
def execItofS32 (s : State) : Result :=
  let a := s.operandA 32
  complete s (toPort (intToFloat Config.underflow a.msb (magnitude a).toNat)) 0#64

/-- FTOI.U32 (R235). -/
def execFtoiU32 (s : State) : Result := completeFtoi .ftoiU32 0 (2 ^ 32 - 1) s

/-- FTOI.S32 (R236). -/
def execFtoiS32 (s : State) : Result := completeFtoi .ftoiS32 (-2 ^ 31) (2 ^ 31 - 1) s

end Sys2Proof.Machine
end

