-- ==== Sys2Proof/Machine/Divide.lean ====
section
/-! DEFINITION. The unsigned division engine, the signed divide adapter and the eight divide operations
(40_integer_divide.md). -/

namespace Sys2Proof.Machine

/-- The engine's working state (R28, R104): the partial remainder has one bit more than the operands. -/
structure DivWork (E : Nat) where
  r : BitVec (E + 1)
  q : BitVec E
  deriving DecidableEq, Repr

/-- One iteration of R104 at numerator bit `i`: shift the remainder left, inject the bit, and where the remainder is not
below the denominator subtract it and set the quotient bit. -/
def divStep {E : Nat} (n d : BitVec E) (i : Nat) (w : DivWork E) : DivWork E :=
  let r := (w.r <<< 1) ||| (BitVec.ofBool (n.getLsbD i)).setWidth (E + 1)
  if d.setWidth (E + 1) ≤ r then
    { r := r - d.setWidth (E + 1), q := w.q ||| (1#E <<< i) }
  else
    { r := r, q := w.q }

/-- The iterations of R104 for numerator bits `k − 1` down to 0. -/
def divLoop {E : Nat} (n d : BitVec E) : Nat → DivWork E → DivWork E
  | 0, w => w
  | i + 1, w => divLoop n d i (divStep n d i w)

/-- `udiv(E, n, d)` of R104: the zero check first (R102), then exactly `E` iterations. -/
def udiv {E : Nat} (n d : BitVec E) : BitVec E × BitVec E :=
  if d = 0#E then (0#E, 0#E)
  else
    let w := divLoop n d E { r := 0#(E + 1), q := 0#E }
    (w.q, w.r.setWidth E)

/-- `E(W)`: 64-bit operands use the 64-bit engine, all others the 32-bit engine (R103). -/
def engineWidth (W : Nat) : Nat := if W = 64 then 64 else 32

/-- A W-bit unsigned division on its engine, operands zero-extended and results cut back to W bits (R103, R105). -/
def divideUnsigned {W : Nat} (n d : BitVec W) : BitVec W × BitVec W :=
  let qr := udiv (n.setWidth (engineWidth W)) (d.setWidth (engineWidth W))
  (qr.1.setWidth W, qr.2.setWidth W)

/-- `sdiv(W, a, b)` of R110: divide the magnitudes, negate the quotient where the signs differ, and give the remainder
the dividend's sign. -/
def divideSigned {W : Nat} (a b : BitVec W) : BitVec W × BitVec W :=
  let qr := divideUnsigned (magnitude a) (magnitude b)
  (negateIf (a.msb ^^ b.msb) qr.1, negateIf a.msb qr.2)

/-- DIVU at width `W` (R105): quotient on `res0`, remainder on `res1`. -/
def completeDivu (W : Nat) (s : State) : Result :=
  let qr := divideUnsigned (s.operandA W) (s.operandB W)
  complete s (toPort qr.1) (toPort qr.2)

/-- DIVS at width `W` (R112): quotient on `res0`, remainder on `res1`, zero-filled above W bits. -/
def completeDivs (W : Nat) (s : State) : Result :=
  let qr := divideSigned (s.operandA W) (s.operandB W)
  complete s (toPort qr.1) (toPort qr.2)

/-- DIVU8 (R106). -/
def execDivu8 (s : State) : Result := completeDivu 8 s

/-- DIVU16 (R107). -/
def execDivu16 (s : State) : Result := completeDivu 16 s

/-- DIVU32 (R108). -/
def execDivu32 (s : State) : Result := completeDivu 32 s

/-- DIVU64 (R109). -/
def execDivu64 (s : State) : Result := completeDivu 64 s

/-- DIVS8 (R112). -/
def execDivs8 (s : State) : Result := completeDivs 8 s

/-- DIVS16 (R113). -/
def execDivs16 (s : State) : Result := completeDivs 16 s

/-- DIVS32 (R114). -/
def execDivs32 (s : State) : Result := completeDivs 32 s

/-- DIVS64 (R115). -/
def execDivs64 (s : State) : Result := completeDivs 64 s

end Sys2Proof.Machine
end

