-- ==== Sys2Proof/Machine/Flags.lean ====
section
/-! DEFINITION. The unit has no flags and no condition codes (10_state.md R24): a comparison's outcome is a value on
`res0`. This file holds that value's codes (43_float_arith.md R210) and the tests of it by which a requester forms the
six relational operators (30_encoding.md R68). -/

namespace Sys2Proof.Machine

/-- The four outcomes of FCMP (R210). -/
inductive Comparison where
  | less
  | equal
  | greater
  | unordered
  deriving DecidableEq, Repr

/-- The codes of R210: less is −1 as a signed 32-bit value. -/
def Comparison.code : Comparison → B32
  | .less => 0xFFFFFFFF#32
  | .equal => 0x00000000#32
  | .greater => 0x00000001#32
  | .unordered => 0x00000002#32

/-- The relational tests of R68. -/
inductive Relation where
  | lt
  | le
  | gt
  | ge
  | eq
  | ne
  | unord
  deriving DecidableEq, Repr

/-- The caller's threshold test on the code `t` that FCMP returned (R68). -/
def Relation.test (rel : Relation) (t : B32) : Bool :=
  match rel with
  | .lt => t == 0xFFFFFFFF#32
  | .le => t == 0xFFFFFFFF#32 || t == 0x00000000#32
  | .gt => t == 0x00000001#32
  | .ge => t == 0x00000000#32 || t == 0x00000001#32
  | .eq => t == 0x00000000#32
  | .ne => t != 0x00000000#32
  | .unord => t == 0x00000002#32

end Sys2Proof.Machine
end

