-- ==== Sys2Proof/Machine/FloatArith.lean ====
section
/-! DEFINITION. Binary32 add, subtract, multiply, divide, negate and compare (43_float_arith.md). Each is the rule's
pseudocode: the special-case table first, in the rule's order (42_float_common.md R171), then the exact result
rounded and packed. The quiet NaN an operation returns is an argument, supplied by its meaning. -/

namespace Sys2Proof.Machine

/-- FADD from its second line on (R190, R191). -/
def addBody (uf : Underflow) (nan a b : B32) : B32 :=
  if isInf a ∧ isInf b ∧ sgn a ≠ sgn b then nan
  else if isInf a then a
  else if isInf b then b
  else if isZero a ∧ isZero b then signedZero (sgn a && sgn b)
  else if isZero a then b
  else if isZero b then a
  else
    let v := units a + units b
    if v = 0 then signedZero false
    else roundPack uf .nearestEven (decide (v < 0)) (Ratio.ofUnits v.natAbs)

/-- FADD (R190). -/
def floatAdd (uf : Underflow) (nan a b : B32) : B32 :=
  if isNaN a ∨ isNaN b then nan else addBody uf nan a b

/-- FSUB (R195): the NaN check, then addition of the second operand with its sign flipped. -/
def floatSub (uf : Underflow) (nan a b : B32) : B32 :=
  if isNaN a ∨ isNaN b then nan else addBody uf nan a (b ^^^ 0x80000000#32)

/-- FMUL (R198). The product of two numbers of units of 2^-149 counts units of 2^-298. -/
def floatMul (uf : Underflow) (nan a b : B32) : B32 :=
  let s := sgn a ^^ sgn b
  if isNaN a ∨ isNaN b then nan
  else if (isInf a ∧ isZero b) ∨ (isZero a ∧ isInf b) then nan
  else if isInf a ∨ isInf b then signedInf s
  else if isZero a ∨ isZero b then signedZero s
  else roundPack uf .nearestEven s { num := unitsAbs a * unitsAbs b, den := 2 ^ 149 * 2 ^ 149 }

/-- FDIV (R202, R204), rounding in mode `m`. The units cancel in the quotient. -/
def floatDiv (uf : Underflow) (m : Rounding) (nan a b : B32) : B32 :=
  let s := sgn a ^^ sgn b
  if isNaN a ∨ isNaN b then nan
  else if isInf a ∧ isInf b then nan
  else if isInf a then signedInf s
  else if isInf b then signedZero s
  else if isZero a ∧ isZero b then nan
  else if isZero b then signedInf s
  else if isZero a then signedZero s
  else roundPack uf m s { num := unitsAbs a, den := unitsAbs b }

/-- FNEG (R207): the sign bit flips, whatever the pattern. -/
def floatNeg (a : B32) : B32 := a ^^^ 0x80000000#32

/-- `ext` of R210: a point of the extended reals, finite ones in units of 2^-149. -/
inductive Extended where
  | negInf
  | finite (units : Int)
  | posInf
  deriving DecidableEq, Repr

/-- The extended real that a non-NaN pattern stands for (R210, R211). -/
def extended (x : B32) : Extended :=
  if isInf x then (if sgn x then .negInf else .posInf) else .finite (units x)

/-- −∞ < every finite value < +∞, finite values by number (R211). -/
def Extended.lt : Extended → Extended → Bool
  | .negInf, .negInf => false
  | .negInf, .finite _ => true
  | .negInf, .posInf => true
  | .finite _, .negInf => false
  | .finite x, .finite y => decide (x < y)
  | .finite _, .posInf => true
  | .posInf, .negInf => false
  | .posInf, .finite _ => false
  | .posInf, .posInf => false

/-- The outcome of FCMP (R210). -/
def floatCompare (a b : B32) : Comparison :=
  if isNaN a ∨ isNaN b then .unordered
  else if (extended a).lt (extended b) then .less
  else if extended a = extended b then .equal
  else .greater

/-- A two-operand binary32 operation gives its response: the result on `res0[31:0]`, zeros elsewhere (R31). Its NaN is
`QNAN` of its own command and of the request's operands (R172; log 9). -/
def completeFloat (i : Instr) (op : B32 → B32 → B32 → B32) (s : State) : Result :=
  let a := s.operandA 32
  let b := s.operandB 32
  complete s (toPort (op (qnan (encode i) a b) a b)) 0#64

/-- FADD (R190). -/
def execFadd (s : State) : Result := completeFloat .fadd (floatAdd Config.underflow) s

/-- FSUB (R195). -/
def execFsub (s : State) : Result := completeFloat .fsub (floatSub Config.underflow) s

/-- FMUL (R198). -/
def execFmul (s : State) : Result := completeFloat .fmul (floatMul Config.underflow) s

/-- FDIV (R202), rounding by `FDIV_ROUND` (R168). -/
def execFdiv (s : State) : Result := completeFloat .fdiv (floatDiv Config.underflow Config.fdivRound) s

/-- FNEG (R207). -/
def execFneg (s : State) : Result := complete s (toPort (floatNeg (s.operandA 32))) 0#64

/-- FCMP (R210). -/
def execFcmp (s : State) : Result :=
  complete s (toPort (floatCompare (s.operandA 32) (s.operandB 32)).code) 0#64

end Sys2Proof.Machine
end

