-- ==== Sys2Proof/Machine/Multiply.lean ====
section
/-! DEFINITION. The shift-and-add multiplier and the twelve multiply operations (41_integer_multiply.md). -/

namespace Sys2Proof.Machine

/-- The multiplier's working state (R28, R131): the accumulator and the shifted multiplicand, 2W bits each. -/
structure MulWork (N : Nat) where
  acc : BitVec N
  x : BitVec N
  deriving DecidableEq, Repr

/-- One iteration of R131 at multiplier bit `i`. -/
def mulStep {N : Nat} (y : BitVec N) (i : Nat) (w : MulWork N) : MulWork N where
  acc := if y.getLsbD i then w.acc + w.x else w.acc
  x := w.x <<< 1

/-- `k` iterations of R131, from multiplier bit `i` upward. -/
def mulLoop {N : Nat} (y : BitVec N) : Nat → Nat → MulWork N → MulWork N
  | 0, _, w => w
  | k + 1, i, w => mulLoop y k (i + 1) (mulStep y i w)

/-- `product(W, a, b)` of R131: the double-width product by shift-and-add over the sign-extended operands. -/
def product {W : Nat} (a b : BitVec W) : BitVec (2 * W) :=
  (mulLoop (b.signExtend (2 * W)) (2 * W) 0 { acc := 0#(2 * W), x := a.signExtend (2 * W) }).acc

/-- `low(W)` of R132. -/
def productLow {W : Nat} (a b : BitVec W) : BitVec W := (product a b).extractLsb' 0 W

/-- `high(W)` of R132. -/
def productHigh {W : Nat} (a b : BitVec W) : BitVec W := (product a b).extractLsb' W W

/-- `shifted(W, f)` of R132: the arithmetic right shift of the product, then its low W bits. -/
def productShifted {W : Nat} (f : Nat) (a b : BitVec W) : BitVec W := ((product a b).sshiftRight f).extractLsb' 0 W

/-- The full product at width `W` (R133). -/
def completeMul (W : Nat) (s : State) : Result :=
  complete s (toPort (product (s.operandA W) (s.operandB W))) 0#64

/-- The low half at width `W` (R136). -/
def completeMull (W : Nat) (s : State) : Result :=
  complete s (toPort (productLow (s.operandA W) (s.operandB W))) 0#64

/-- The high half at width `W` (R139). -/
def completeMulh (W : Nat) (s : State) : Result :=
  complete s (toPort (productHigh (s.operandA W) (s.operandB W))) 0#64

/-- The shifted product at width `W` with fraction width `f` (R142, R143). -/
def completeMulq (W : Nat) (f : BitVec 6) (s : State) : Result :=
  complete s (toPort (productShifted f.toNat (s.operandA W) (s.operandB W))) 0#64

/-- MUL8 (R133). -/
def execMul8 (s : State) : Result := completeMul 8 s

/-- MUL16 (R134). -/
def execMul16 (s : State) : Result := completeMul 16 s

/-- MUL32 (R135). -/
def execMul32 (s : State) : Result := completeMul 32 s

/-- MULL8 (R136). -/
def execMull8 (s : State) : Result := completeMull 8 s

/-- MULL16 (R137). -/
def execMull16 (s : State) : Result := completeMull 16 s

/-- MULL32 (R138). -/
def execMull32 (s : State) : Result := completeMull 32 s

/-- MULH8 (R139). -/
def execMulh8 (s : State) : Result := completeMulh 8 s

/-- MULH16 (R140). -/
def execMulh16 (s : State) : Result := completeMulh 16 s

/-- MULH32 (R141). -/
def execMulh32 (s : State) : Result := completeMulh 32 s

/-- MULQ8 (R143). -/
def execMulq8 (f : BitVec 6) (s : State) : Result := completeMulq 8 f s

/-- MULQ16 (R144). -/
def execMulq16 (f : BitVec 6) (s : State) : Result := completeMulq 16 f s

/-- MULQ32 (R145). -/
def execMulq32 (f : BitVec 6) (s : State) : Result := completeMulq 32 f s

end Sys2Proof.Machine
end

