-- ==== Sys2Proof/Machine/Dispatch.lean ====
section
/-! DEFINITION. One arm per operation. -/

namespace Sys2Proof.Machine

/-- The meaning of an operation on the operands that stand at the request port. -/
def exec (i : Instr) (s : State) : Host.Outcome State Fault Refusal :=
  match i with
  | .divu8 => Sys2Proof.Machine.execDivu8 s
  | .divu16 => Sys2Proof.Machine.execDivu16 s
  | .divu32 => Sys2Proof.Machine.execDivu32 s
  | .divu64 => Sys2Proof.Machine.execDivu64 s
  | .divs8 => Sys2Proof.Machine.execDivs8 s
  | .divs16 => Sys2Proof.Machine.execDivs16 s
  | .divs32 => Sys2Proof.Machine.execDivs32 s
  | .divs64 => Sys2Proof.Machine.execDivs64 s
  | .mul8 => Sys2Proof.Machine.execMul8 s
  | .mul16 => Sys2Proof.Machine.execMul16 s
  | .mul32 => Sys2Proof.Machine.execMul32 s
  | .mull8 => Sys2Proof.Machine.execMull8 s
  | .mull16 => Sys2Proof.Machine.execMull16 s
  | .mull32 => Sys2Proof.Machine.execMull32 s
  | .mulh8 => Sys2Proof.Machine.execMulh8 s
  | .mulh16 => Sys2Proof.Machine.execMulh16 s
  | .mulh32 => Sys2Proof.Machine.execMulh32 s
  | .mulq8 f => Sys2Proof.Machine.execMulq8 f s
  | .mulq16 f => Sys2Proof.Machine.execMulq16 f s
  | .mulq32 f => Sys2Proof.Machine.execMulq32 f s
  | .fadd => Sys2Proof.Machine.execFadd s
  | .fsub => Sys2Proof.Machine.execFsub s
  | .fmul => Sys2Proof.Machine.execFmul s
  | .fdiv => Sys2Proof.Machine.execFdiv s
  | .fneg => Sys2Proof.Machine.execFneg s
  | .fcmp => Sys2Proof.Machine.execFcmp s
  | .itofU32 => Sys2Proof.Machine.execItofU32 s
  | .itofS32 => Sys2Proof.Machine.execItofS32 s
  | .ftoiU32 => Sys2Proof.Machine.execFtoiU32 s
  | .ftoiS32 => Sys2Proof.Machine.execFtoiS32 s

end Sys2Proof.Machine
end

