-- ==== Sys2Proof/Machine/Step.lean ====
section
/-! DEFINITION. One step of the unit: one whole transaction (10_state.md R21). -/

namespace Sys2Proof.Machine

/-- One step. Reset, when asserted, abandons whatever is in progress (R281); with no request the unit waits (R280); else
it takes the request, and the command either spells an operation, which runs, or is illegal (R62, R252). -/
def step (s : State) : Host.Outcome State Fault Refusal :=
  if s.resetAsserted then .next s.afterReset
  else if s.requested then
    match decode s.cmd with
    | .ok i => exec i s
    | .error _ => .fault (.illegalCommand s.cmd)
  else .next s.idle

/-- `s` with the command whose bits are `w` presented, so that the next step takes it (log 6). The operands standing at
the ports are kept; a request that still stands is replaced (log 15). -/
def State.withFetchWord (s : State) (nbits w : Nat) : State :=
  { s with cmd := BitVec.ofNat 16 (w % 2 ^ nbits), requested := true, resetAsserted := false }

end Sys2Proof.Machine
end

