-- ==== Sys2Proof/Machine/Requests.lean ====
section
/-! DEFINITION. The unit as its requesters see it: one transaction, and any sequence of them (10_state.md R21;
20_memory.md R47; 70_reset_and_hazards.md R284). -/

namespace Sys2Proof.Machine

/-- One transaction: a requester presents `r` and the unit takes it (R21, R285), whatever stood at the port before
(log 15). -/
def transact (s : State) (r : Request) : Result := step (s.present r)

/-- Where a transaction leaves the unit and its ports. An illegal command leaves the unit as it was, with the illegal
response on the port, its result words the draw `draw` of `ILLEGAL_RES` (R252, R284). -/
def afterTransaction (draw : Nat) (s : State) (r : Request) : State :=
  match transact s r with
  | .next t => t
  | .fault (.illegalCommand _) => (s.present r).respondIllegal draw
  | .refused _ => s.present r

/-- The responses to a sequence of requests, as any number of requesters may interleave them (R47), legal and illegal
alike (R284). Each illegal command takes a fresh draw, counted from `draw`. -/
def responsesTo (draw : Nat) (s : State) : List Request → List (Option Response)
  | [] => []
  | r :: rs =>
    let t := afterTransaction draw s r
    t.response :: responsesTo (draw + 1) t rs

/-- The response of a unit fresh from reset to one request: the function of the request alone that R21 speaks of. -/
def responseOf (draw : Nat) (r : Request) : Option Response := (afterTransaction draw State.reset r).response

end Sys2Proof.Machine
end

