-- ==== Sys2Proof/Machine/Assembly.lean ====
section
/-! DEFINITION. The spec's notation for one operation (30_encoding.md R67) and its pseudo-operations (R68), each with its
expansion into one legal command and the caller's selection or test of the response. -/

namespace Sys2Proof.Machine

/-- The width of a pseudo-operation's operands. -/
inductive DivideWidth where
  | w8
  | w16
  | w32
  | w64
  deriving DecidableEq, Repr

/-- The width of a low-half multiply's operands. -/
inductive MultiplyWidth where
  | w8
  | w16
  | w32
  deriving DecidableEq, Repr

/-- The pseudo-operations of R68. -/
inductive Pseudo where
  /-- `UDIV_W`: quotient only -/
  | udiv (w : DivideWidth)
  /-- `UREM_W`: remainder only -/
  | urem (w : DivideWidth)
  /-- `SDIV_W`: quotient only -/
  | sdiv (w : DivideWidth)
  /-- `SREM_W`: remainder only -/
  | srem (w : DivideWidth)
  /-- `MULLU_W`: the unsigned low half -/
  | mullu (w : MultiplyWidth)
  /-- `FLT`, `FLE`, `FGT`, `FGE`, `FEQ`, `FNE`, `FUNORD` -/
  | compare (rel : Relation)
  deriving DecidableEq, Repr

/-- DIVU at a width (R64). -/
def divuAt : DivideWidth → Instr
  | .w8 => .divu8
  | .w16 => .divu16
  | .w32 => .divu32
  | .w64 => .divu64

/-- DIVS at a width (R64). -/
def divsAt : DivideWidth → Instr
  | .w8 => .divs8
  | .w16 => .divs16
  | .w32 => .divs32
  | .w64 => .divs64

/-- MULL at a width (R64). -/
def mullAt : MultiplyWidth → Instr
  | .w8 => .mull8
  | .w16 => .mull16
  | .w32 => .mull32

/-- The one legal command a pseudo-operation expands into (R68). -/
def Pseudo.expand : Pseudo → Instr
  | .udiv w => divuAt w
  | .urem w => divuAt w
  | .sdiv w => divsAt w
  | .srem w => divsAt w
  | .mullu w => mullAt w
  | .compare _ => .fcmp

/-- What the caller takes from the response: a result word, or a test of the comparison code as 0 or 1 (R68). -/
def Pseudo.select (p : Pseudo) (r : Response) : Port :=
  match p with
  | .udiv _ => r.res0
  | .urem _ => r.res1
  | .sdiv _ => r.res0
  | .srem _ => r.res1
  | .mullu _ => r.res0
  | .compare rel => (BitVec.ofBool (rel.test (lowBits 32 r.res0))).setWidth 64

/-- The result of a pseudo-operation on operands `a` and `b`: its one command is presented to the unit and the
caller's selection applied to the response. -/
def Pseudo.result (p : Pseudo) (a b : Port) : Option Port :=
  match transact State.reset { cmd := encode p.expand, a := a, b := b } with
  | .next t => t.response.map p.select
  | .fault _ => none
  | .refused _ => none

/-- One operation in the notation of R67: destinations, then `<-`, then the values put on `a` and `b`. -/
def asmLine (i : Instr) (dst0 dst1 a b : String) : String :=
  let shift :=
    match i with
    | .mulq8 f | .mulq16 f | .mulq32 f => "#" ++ toString f.toNat ++ ", "
    | .divu8 | .divu16 | .divu32 | .divu64 | .divs8 | .divs16 | .divs32 | .divs64
    | .mul8 | .mul16 | .mul32 | .mull8 | .mull16 | .mull32 | .mulh8 | .mulh16 | .mulh32
    | .fadd | .fsub | .fmul | .fdiv | .fneg | .fcmp | .itofU32 | .itofS32 | .ftoiU32 | .ftoiS32 => ""
  let dst := if i.res1Width = 0 then dst0 else dst0 ++ ", " ++ dst1
  let src := if i.readsB then a ++ ", " ++ b else a
  i.mnemonic ++ " " ++ shift ++ dst ++ " <- " ++ src

end Sys2Proof.Machine
end

