-- ==== Sys2Proof/Machine/Datapath.lean ====
section
/-! DEFINITION. The numeric datapaths that the spec describes beside its result rules: aligned addition
(43_float_arith.md R192), the 48-bit product (R199), the 26-bit long division (R203) and the integer-to-float shift
(44_conversions.md R233), with the guard, round and sticky bits of 42_float_common.md R166. The meanings follow the
result rules; these are the hardware that is to give the same results. -/

namespace Sys2Proof.Machine

/-- The rounding accumulator (R13, R28): 24 retained bits, then guard, then round, in `bits`; and the sticky bit. -/
structure Acc where
  bits : Nat
  sticky : Bool
  deriving DecidableEq, Repr

/-- The retained significand bits. -/
def Acc.retained (acc : Acc) : Nat := acc.bits / 4

/-- G, the first dropped bit (R166). -/
def Acc.guardBit (acc : Acc) : Bool := acc.bits.testBit 1

/-- R, the second dropped bit (R166). -/
def Acc.roundBit (acc : Acc) : Bool := acc.bits.testBit 0

/-- Rounding by the bits: RNE rounds up exactly when `G and (R or S or L)`, RTZ never (R166). -/
def Acc.rounded (acc : Acc) (m : Rounding) : Nat :=
  match m with
  | .towardZero => acc.retained
  | .nearestEven =>
    if acc.guardBit && (acc.roundBit || acc.sticky || acc.retained.testBit 0) then acc.retained + 1 else acc.retained

/-- A number shifted right by `k`, the bits shifted out ORed into the sticky bit. -/
def Acc.ofShifted (n k : Nat) (sticky : Bool) : Acc where
  bits := n >>> k
  sticky := sticky || n % 2 ^ k != 0

/-- Round and pack at exponent `e` (R167): a gradual result is first shifted to subnormal precision. -/
def packAcc (uf : Underflow) (m : Rounding) (s : Bool) (acc : Acc) (e : Int) : B32 :=
  if e < -126 ∧ uf = .gradual then
    packSubnormal s ((Acc.ofShifted acc.bits (-126 - e).toNat acc.sticky).rounded m)
  else packRounded s (acc.rounded m) e

/-- The multiplier's numeric path (R199) on normalised operands: the 48-bit product, renormalised by at most one place. -/
def mulPath (uf : Underflow) (s : Bool) (x y : Nat × Int) : B32 :=
  let p := x.1 * y.1
  let e := x.2 + y.2
  if p < 2 ^ 47 then packAcc uf .nearestEven s (Acc.ofShifted (p <<< 1) 22 false) e
  else packAcc uf .nearestEven s (Acc.ofShifted p 22 false) (e + 1)

/-- The long division of R203: `k` quotient bits, from remainder `r` and quotient `q`. -/
def divDigits (mb : Nat) : Nat → Nat → Nat → Nat × Nat
  | 0, q, r => (q, r)
  | k + 1, q, r => if mb ≤ r then divDigits mb k (2 * q + 1) (2 * (r - mb)) else divDigits mb k (2 * q) (2 * r)

/-- The divider's numeric path (R203) on normalised operands: pre-normalisation, 26 quotient bits, and the remainder
into the sticky bit. -/
def divPath (uf : Underflow) (m : Rounding) (s : Bool) (x y : Nat × Int) : B32 :=
  let low := decide (x.1 < y.1)
  let ma := if low then 2 * x.1 else x.1
  let e := if low then x.2 - y.2 - 1 else x.2 - y.2
  let qr := divDigits y.1 26 0 ma
  packAcc uf m s { bits := qr.1, sticky := qr.2 != 0 } e

/-- The adder's alignment (R192 step 2): the operand of smaller exponent shifted right by the difference, three places
below the significand kept as guard, round and sticky. -/
def alignSmaller (sig : Nat) (d : Nat) : Nat :=
  let acc := Acc.ofShifted (sig <<< 3) d false
  if acc.sticky then acc.bits ||| 1 else acc.bits

/-- The adder's renormalisation, rounding and packing (R192 steps 4 and 5) of a sum `n` whose leading bit would stand at
place 26 for exponent `e`. -/
def renormPack (uf : Underflow) (s : Bool) (n : Nat) (e : Int) : B32 :=
  if 2 ^ 27 ≤ n then packAcc uf .nearestEven s (Acc.ofShifted n 2 false) (e + 1)
  else
    let k := 26 - Nat.log2 n
    packAcc uf .nearestEven s (Acc.ofShifted (n <<< k) 1 false) (e - (k : Int))

/-- The adder's numeric path (R192) on normalised operands with signs: align, add or subtract by the signs,
renormalise, round and pack; an exact cancellation is +0 (R191). -/
def addPath (uf : Underflow) (sx : Bool) (x : Nat × Int) (sy : Bool) (y : Nat × Int) : B32 :=
  let yBigger : Bool := decide (x.2 < y.2)
  let e := if yBigger then y.2 else x.2
  let X : Int := if yBigger then alignSmaller x.1 (y.2 - x.2).toNat else ((x.1 <<< 3 : Nat) : Int)
  let Y : Int := if yBigger then ((y.1 <<< 3 : Nat) : Int) else alignSmaller y.1 (x.2 - y.2).toNat
  let n := (if sx then -X else X) + (if sy then -Y else Y)
  if n = 0 then signedZero false
  else renormPack uf (decide (n < 0)) n.natAbs e

/-- The integer-to-float datapath (R233) for a nonzero magnitude `n` with its highest set bit at `p`. -/
def intPath (uf : Underflow) (s : Bool) (n : Nat) : B32 :=
  let p := Nat.log2 n
  if p ≤ 23 then packAcc uf .nearestEven s { bits := (n <<< (23 - p)) <<< 2, sticky := false } p
  else packAcc uf .nearestEven s (Acc.ofShifted (n <<< 2) (p - 23) false) p

end Sys2Proof.Machine
end

