-- ==== Sys2Proof/Safety.lean ====
section
/-! DEFINITION. What counts as a safe run, and the terms in which claims about the unit are made: completion with
everything it leaves unchanged, and the spec's exact values, rounding and packing over the rationals
(42_float_common.md R162, R166, R167), which are written here from the rules and not from the machine's integers. -/

namespace Sys2Proof.Machine

/-- A sequence of requests is safe when every command spells an operation: then no step faults (R62, R252). -/
def safeRequests (rs : List Request) : Bool := rs.all fun r => isLegal r.cmd

/-- Operation `i` completes at `s` with results `r0` and `r1`: the next state differs from `s` in the response, which
has `illegal = 0`, and in that the request is taken. The request port and the reset line stay as they are, and there
is no register, flag, special register or memory beside them (R22 to R27, R40). -/
def Responds (i : Instr) (s : State) (r0 r1 : Port) : Prop :=
  exec i s =
    .next { cmd := s.cmd, a := s.a, b := s.b, requested := false, resetAsserted := s.resetAsserted,
            response := some { res0 := r0, res1 := r1, illegal := false } }

/-- The response standing on the port is the one that the request at the port asks for (R21). -/
def PortsAgree (s : State) : Prop :=
  ∀ r, s.requested = false → s.response = some r →
    ∃ i, decode s.cmd = .ok i ∧ Responds i s r.res0 r.res1 ∧ r.illegal = false

/-- The quotient of R101 and R102. -/
def natQuotient (n d : Nat) : Nat := if d = 0 then 0 else n / d

/-- The remainder of R101 and R102. -/
def natRemainder (n d : Nat) : Nat := if d = 0 then 0 else n % d

/-- The truncated quotient of R111, 0 for a zero divisor. -/
def intQuotient (n d : Int) : Int := if d = 0 then 0 else n.tdiv d

/-- The remainder that goes with it (R111). -/
def intRemainder (n d : Int) : Int := if d = 0 then 0 else n - n.tdiv d * d

/-- `(-1)^s`. -/
def signFactor (s : Bool) : ℚ := if s then -1 else 1

/-- `val(x)`, the exact rational value of a finite pattern (R162). -/
def val (x : B32) : ℚ :=
  match classify x with
  | .zero _ => 0
  | .subnormal s f => signFactor s * f.toNat * (2 : ℚ) ^ (-149 : ℤ)
  | .normal s e f => signFactor s * (2 ^ 23 + f.toNat) * (2 : ℚ) ^ ((e.toNat : ℤ) - 150)
  | .inf _ => 0
  | .nan _ _ _ => 0

/-- `round(v, m)` of R166. -/
def roundExact (m : Rounding) (v : ℚ) : ℤ :=
  match m with
  | .towardZero => ⌊v⌋
  | .nearestEven =>
    if v - ⌊v⌋ < 1 / 2 then ⌊v⌋
    else if 1 / 2 < v - ⌊v⌋ then ⌊v⌋ + 1
    else if ⌊v⌋ % 2 = 0 then ⌊v⌋ else ⌊v⌋ + 1

/-- The last lines of `round_pack` (R167, R170), from a significand `M` at exponent `e`. -/
def PackedAs (s : Bool) (M e : ℤ) (z : B32) : Prop :=
  if 255 ≤ e + 127 then z = signedInf s
  else if e + 127 ≤ 0 then z = signedZero s
  else sgn z = s ∧ ((expf z).toNat : ℤ) = e + 127 ∧ ((frac z).toNat : ℤ) = M - 2 ^ 23

/-- `z = round_pack(s, v, m)` (R167), with `e = floor(log2(v))`. -/
def RoundPacked (uf : Underflow) (m : Rounding) (s : Bool) (v : ℚ) (z : B32) : Prop :=
  ∃ e : ℤ, (2 : ℚ) ^ e ≤ v ∧ v < (2 : ℚ) ^ (e + 1) ∧
    if uf = .gradual ∧ e < -126 then
      (z.toNat : ℤ) = (if s then 2 ^ 31 else 0) + roundExact m (v * (2 : ℚ) ^ (149 : ℤ))
    else if roundExact m (v * (2 : ℚ) ^ (23 - e)) = 2 ^ 24 then PackedAs s (2 ^ 23) (e + 1) z
    else PackedAs s (roundExact m (v * (2 : ℚ) ^ (23 - e))) e z

/-- What FADD gives after its NaN check (R190 from its second line, R191), `nan` standing for `QNAN(cmd, a, b)`. -/
def SumRule (uf : Underflow) (nan a b z : B32) : Prop :=
  if isInf a ∧ isInf b ∧ sgn a ≠ sgn b then z = nan
  else if isInf a then z = a
  else if isInf b then z = b
  else if isZero a ∧ isZero b then z = signedZero (sgn a && sgn b)
  else if isZero a then z = b
  else if isZero b then z = a
  else if val a + val b = 0 then z = 0x00000000#32
  else RoundPacked uf .nearestEven (decide (val a + val b < 0)) |val a + val b| z

/-- What FMUL gives (R198). -/
def ProductRule (uf : Underflow) (nan a b z : B32) : Prop :=
  if isNaN a ∨ isNaN b then z = nan
  else if (isInf a ∧ isZero b) ∨ (isZero a ∧ isInf b) then z = nan
  else if isInf a ∨ isInf b then z = signedInf (sgn a ^^ sgn b)
  else if isZero a ∨ isZero b then z = signedZero (sgn a ^^ sgn b)
  else RoundPacked uf .nearestEven (sgn a ^^ sgn b) |val a * val b| z

/-- What FDIV gives (R202, R204), rounding in mode `m`. -/
def QuotientRule (uf : Underflow) (m : Rounding) (nan a b z : B32) : Prop :=
  if isNaN a ∨ isNaN b then z = nan
  else if isInf a ∧ isInf b then z = nan
  else if isInf a then z = signedInf (sgn a ^^ sgn b)
  else if isInf b then z = signedZero (sgn a ^^ sgn b)
  else if isZero a ∧ isZero b then z = nan
  else if isZero b then z = signedInf (sgn a ^^ sgn b)
  else if isZero a then z = signedZero (sgn a ^^ sgn b)
  else RoundPacked uf m (sgn a ^^ sgn b) |val a / val b| z

/-- `ext(a) < ext(b)` for patterns that are no NaN (R210, R211). -/
def Precedes (a b : B32) : Prop :=
  (isInf a ∧ sgn a ∧ ¬(isInf b ∧ sgn b)) ∨ (isInf b ∧ ¬sgn b ∧ ¬(isInf a ∧ ¬sgn a)) ∨
    (isFinite a ∧ isFinite b ∧ val a < val b)

/-- `ext(a) == ext(b)` for patterns that are no NaN (R210, R211). -/
def SameValue (a b : B32) : Prop :=
  (isInf a ∧ isInf b ∧ sgn a = sgn b) ∨ (isFinite a ∧ isFinite b ∧ val a = val b)

/-- Neither pattern is a NaN. -/
def Ordered (a b : B32) : Prop := isNaN a = false ∧ isNaN b = false

/-- What a relational operator means on two patterns (R68 with R210): `FNE` is true when unordered. -/
def Relation.Holds (rel : Relation) (a b : B32) : Prop :=
  match rel with
  | .lt => Ordered a b ∧ Precedes a b
  | .le => Ordered a b ∧ (Precedes a b ∨ SameValue a b)
  | .gt => Ordered a b ∧ Precedes b a
  | .ge => Ordered a b ∧ (Precedes b a ∨ SameValue a b)
  | .eq => Ordered a b ∧ SameValue a b
  | .ne => ¬(Ordered a b ∧ SameValue a b)
  | .unord => ¬Ordered a b

/-- `trunc(x)`: a rational rounded toward zero (R10). -/
def truncExact (v : ℚ) : ℤ := if 0 ≤ v then ⌊v⌋ else ⌈v⌉

/-- What FTOI gives (R234): the truncated value where it lies between `lo` and `hi`, else `oob`. -/
def TruncRule (oob : B32) (lo hi : ℤ) (x z : B32) : Prop :=
  if isNaN x ∨ isInf x then z = oob
  else if lo ≤ truncExact (val x) ∧ truncExact (val x) ≤ hi then z = BitVec.ofInt 32 (truncExact (val x))
  else z = oob

/-- A non-negative number with at most 24 significant bits (R230, R237). -/
def FitsSignificand (n : Nat) : Prop := ∃ m k : Nat, m < 2 ^ 24 ∧ n = m * 2 ^ k

end Sys2Proof.Machine
end

