-- ==== Sys2Proof/Certificates/Slice0/Obligations.lean ====
section
/-! DEFINITION. The statements for the provers. Each docstring names the rule or the passage it formalises, and says where
a clause rests on an inference or a choice that the spec marks as its own, or on a log entry of this model. -/

open Sys2Proof Sys2Proof.Machine

/-! ## Encoding (30_encoding.md) -/

/-- Decoding the command of a well-formed operation gives it back, at every fraction width (R62 and R64 agree). -/
def Obligations.DecodeOfEncode : Prop := ∀ i : Instr, WellFormed i = true → decode (encode i) = .ok i

/-- An accepted command is the command of what it decodes to, and that is well formed: decoding drops no bit. -/
def Obligations.EncodeOfDecode : Prop :=
  ∀ (cmd : Cmd) (i : Instr), decode cmd = .ok i → WellFormed i = true ∧ encode i = cmd

/-- R64: a command selects the row whose `(cmd and mask) == match`, no two rows overlap, and the free field is `f`,
kept below 2W by the mask. -/
def Obligations.DecodeFollowsOpcodeMap : Prop :=
  (∀ (cmd : Cmd) (i : Instr), decode cmd = .ok i →
    ∃ row ∈ opcodeRows, row.mnemonic = i.mnemonic ∧ cmd &&& row.mask = row.pattern ∧ i.fraction = cmdF cmd ∧
      (row.mask ≠ 0xFFFF#16 → (cmdF cmd).toNat < 2 * i.width)) ∧
  (∀ cmd : Cmd, ∀ row ∈ opcodeRows, cmd &&& row.mask = row.pattern →
    ∃ i, decode cmd = .ok i ∧ i.mnemonic = row.mnemonic) ∧
  decode 0x0854#16 = .ok (.mulq16 8#6) ∧
  opcodeRows.Pairwise fun r t => ∀ cmd : Cmd, ¬(cmd &&& r.mask = r.pattern ∧ cmd &&& t.mask = t.pattern)

/-- The reserved space is exactly the commands that R65 lists, and each is illegal: it faults, and the response beside the
fault has `illegal = 1` with drawn result words (the indexed draw is the model's choice, log 11; that `r` replaces a
request that may still stand at `s` is log 15). -/
def Obligations.ReservedSpaceExactly : Prop :=
  (∀ cmd : Cmd, isLegal cmd = false ↔
    (cmd.getLsbD 7 = true ∨ cmd.extractLsb' 14 2 ≠ 0#2) ∨
    (cmdFunc cmd = 0x5#4 ∨ cmdFunc cmd = 0x6#4 ∨ cmdFunc cmd = 0x7#4) ∨
    (0x1#4 ≤ cmdFunc cmd ∧ cmdFunc cmd ≤ 0x4#4 ∧ (cmdSg cmd = false ∨ cmdWc cmd = 3#2)) ∨
    ((cmdFunc cmd ≤ 0x3#4 ∨ 0x8#4 ≤ cmdFunc cmd) ∧ cmdF cmd ≠ 0#6) ∨
    (cmdFunc cmd = 0x4#4 ∧ 2 * (8 * 2 ^ (cmdWc cmd).toNat) ≤ (cmdF cmd).toNat) ∨
    (0x8#4 ≤ cmdFunc cmd ∧ cmdFunc cmd ≤ 0xD#4 ∧ (cmdWc cmd ≠ 2#2 ∨ cmdSg cmd = true)) ∨
    (0xE#4 ≤ cmdFunc cmd ∧ cmdWc cmd ≠ 2#2)) ∧
  (∀ (draw : Nat) (s : State) (r : Request), s.resetAsserted = false → isLegal r.cmd = false →
    transact s r = .fault (.illegalCommand r.cmd) ∧
    (afterTransaction draw s r).response =
      some { res0 := (Config.illegalRes draw).1, res1 := (Config.illegalRes draw).2, illegal := true })

/-- Commands written out bit by bit from R60 and R64 decode to the operations they stand for, one or more per family. -/
def Obligations.SampleCommandsDecode : Prop :=
  decode 0b0000000000110000#16 = .ok .divu64 ∧
  decode 0b0000000001000000#16 = .ok .divs8 ∧
  decode 0b0000000001010001#16 = .ok .mul16 ∧
  decode 0b0000000001100010#16 = .ok .mull32 ∧
  decode 0b0000000001000011#16 = .ok .mulh8 ∧
  decode 0b0000100001010100#16 = .ok (.mulq16 8#6) ∧
  decode 0b0000000000101001#16 = .ok .fsub ∧
  decode 0b0000000000101101#16 = .ok .fcmp ∧
  decode 0b0000000001101110#16 = .ok .itofS32 ∧
  decode 0b0000000000101111#16 = .ok .ftoiU32

/-- 139 commands are legal (the count that 93_implementation_defined.md row 6 derives). -/
def Obligations.LegalCommandsNumber139 : Prop :=
  ∃ cmds : List Cmd, cmds.Nodup ∧ cmds.length = 139 ∧ ∀ cmd, isLegal cmd = true ↔ cmd ∈ cmds

/-! ## The transaction (10_state.md, 20_memory.md, 60_exceptions.md, 70_reset_and_hazards.md) -/

/-- A requested command that decodes to `i` makes the step run `i`, with nothing added around it; so does a request when it
is presented, in place of one that may still stand (log 15). -/
def Obligations.StepRunsTheDecodedOperation : Prop :=
  (∀ (s : State) (i : Instr), s.resetAsserted = false → s.requested = true → decode s.cmd = .ok i → step s = exec i s) ∧
  ∀ (s : State) (r : Request) (i : Instr), s.resetAsserted = false → decode r.cmd = .ok i →
    transact s r = exec i { cmd := r.cmd, a := r.a, b := r.b, requested := true, resetAsserted := false,
                            response := s.response }

/-- With no request and no reset the unit waits, and the response it gave is over (the model's reading of R22 and R280,
log 5). -/
def Obligations.StepWaitsWithoutRequest : Prop :=
  ∀ s : State, s.resetAsserted = false → s.requested = false →
    step s = .next { cmd := s.cmd, a := s.a, b := s.b, requested := false, resetAsserted := false, response := none }

/-- An illegal command performs no operation, gives the fault outcome, changes nothing but the ports, and its response has
`illegal = 1` and drawn result words (R252). The state left beside the fault and its indexed draw are the model's
choice of form (log 11), and so is it that `r` replaces a request that may still stand at `s` (log 15). That no other command faults is `OnlyIllegalCommandsStop`. -/
def Obligations.IllegalCommandFaultsAndIsAnswered : Prop :=
  ∀ (draw : Nat) (s : State) (r : Request), s.resetAsserted = false → isLegal r.cmd = false →
    transact s r = .fault (.illegalCommand r.cmd) ∧
    afterTransaction draw s r =
      { cmd := r.cmd, a := r.a, b := r.b, requested := false, resetAsserted := false,
        response := some { res0 := (Config.illegalRes draw).1, res1 := (Config.illegalRes draw).2, illegal := true } }

/-- A step stops only at a requested illegal command, with the fault of that command, and is never refused: no operation
traps or faults (R250, first sentence; R62, last sentence). -/
def Obligations.OnlyIllegalCommandsStop : Prop :=
  (∀ (s : State) (f : Fault), step s = .fault f ↔
    s.resetAsserted = false ∧ s.requested = true ∧ isLegal s.cmd = false ∧ f = .illegalCommand s.cmd) ∧
  ∀ (s : State) (x : Refusal), step s ≠ .refused x

/-- Every operation completes at every state, with `illegal = 0` and nothing else changed (R62, R250). -/
def Obligations.EveryOperationCompletes : Prop := ∀ (i : Instr) (s : State), ∃ r0 r1, Responds i s r0 r1

/-- R31: an operation reads only the listed operand bits, and the bits of `res0` and `res1` not listed are 0. -/
def Obligations.OperandBitsReadAndResultBitsDriven : Prop :=
  ∀ (i : Instr) (s : State) (r0 r1 : Port), Responds i s r0 r1 →
    (∀ t : State, lowBits i.width t.a = lowBits i.width s.a →
      (i.readsB = true → lowBits i.width t.b = lowBits i.width s.b) → Responds i t r0 r1) ∧
    r0.toNat < 2 ^ i.res0Width ∧ r1.toNat < 2 ^ i.res1Width

/-- No part of a response depends on an earlier operation (R22, R47). Whatever state the unit is in and whatever requests,
legal or illegal, came before, each request of a sequence gets the response that a unit fresh from reset gives to it
alone. An illegal request's result words are the draw of its own place in the sequence, which is the model's choice
(log 11), as it is that the first request of the sequence replaces one that may still stand at `s` (log 15). -/
def Obligations.ResponsesIndependentOfEarlierOperations : Prop :=
  ∀ (draw : Nat) (s : State) (rs : List Request), s.resetAsserted = false →
    responsesTo draw s rs = rs.mapIdx fun k r => responseOf (draw + k) r

/-- Repeating a legal request gives the same response, whatever is drawn in between: only an illegal command's result
words are a draw (R46; the operands enter QNAN and FTOI_OOB as log 9 and log 10 say; a request that may still stand is
replaced, log 15). -/
def Obligations.LegalResponsesDrawNothing : Prop :=
  ∀ (draw draw' : Nat) (s t : State) (r : Request), s.resetAsserted = false → t.resetAsserted = false →
    isLegal r.cmd = true →
    (afterTransaction draw s r).response = (afterTransaction draw' t r).response ∧
    ∃ resp, (afterTransaction draw s r).response = some resp ∧ resp.illegal = false

/-- Every step keeps the ports in agreement: a response that stands while no request does is the one that the request at
the port asks for (R21). -/
def Obligations.StepKeepsPortsInAgreement : Prop :=
  ∀ s t : State, PortsAgree s → step s = .next t → PortsAgree t

/-- The ports agree right after reset, where no response stands (R280; the model's form of it, log 2). -/
def Obligations.PortsAgreeAfterReset : Prop := PortsAgree State.reset

/-- After reset the unit accepts a request: no request is in progress, no response stands, and the first legal request
runs as any other (R280, R283; the values of the request port are the model's choice, log 3). -/
def Obligations.ReadyAfterReset : Prop :=
  State.reset.requested = false ∧ State.reset.resetAsserted = false ∧ State.reset.response = none ∧
  ∀ (r : Request) (i : Instr), decode r.cmd = .ok i →
    transact State.reset r = exec i { cmd := r.cmd, a := r.a, b := r.b, requested := true, resetAsserted := false,
                                      response := none }

/-- Reset, whenever it is asserted, leaves the reset state: with a request in progress, which is abandoned and gets no
response, while a response stands, and while the unit is idle. The reissued request gets the response that the
abandoned one would have had (R281, the spec's own choice D19; how reset arrives is log 4; that `r` replaces a request that may
still stand at `s` is log 15). -/
def Obligations.ResetAbandonsTheRequest : Prop :=
  (∀ s : State, s.resetAsserted = true → step s = .next State.reset) ∧
  State.reset.requested = false ∧ State.reset.response = none ∧
  ∀ (s : State) (r : Request), s.resetAsserted = false →
    step (s.present r).assertReset = .next State.reset ∧
    ∀ draw, (afterTransaction draw State.reset r).response = (afterTransaction draw s r).response

/-! ## Integer divide (40_integer_divide.md) -/

/-- R101: for `d ≠ 0` the engine returns `q = floor(n / d)` and `r = n − q·d`, so `n = q·d + r` and `r < d`. -/
def Obligations.EngineDividesExactly : Prop :=
  ∀ (E : Nat) (n d : BitVec E), d ≠ 0#E →
    (udiv n d).1.toNat = n.toNat / d.toNat ∧
    (udiv n d).2.toNat = n.toNat - (udiv n d).1.toNat * d.toNat ∧
    n.toNat = (udiv n d).1.toNat * d.toNat + (udiv n d).2.toNat ∧
    (udiv n d).2.toNat < d.toNat

/-- R102: a zero divisor gives (0, 0), in the engine and so in every divide. -/
def Obligations.DivisionByZeroGivesZeros : Prop :=
  (∀ (E : Nat) (n : BitVec E), udiv n 0#E = (0#E, 0#E)) ∧
  ∀ (i : Instr) (s : State),
    i ∈ [Instr.divu8, .divu16, .divu32, .divu64, .divs8, .divs16, .divs32, .divs64] →
    lowBits i.width s.b = 0#i.width → Responds i s 0#64 0#64

/-- R105: DIVU at each width completes with the unsigned quotient and remainder of the low W bits. -/
def Obligations.UnsignedDivides : Prop :=
  ∀ (i : Instr) (s : State), i ∈ [Instr.divu8, .divu16, .divu32, .divu64] →
    Responds i s
      (BitVec.ofNat 64 (natQuotient (lowBits i.width s.a).toNat (lowBits i.width s.b).toNat))
      (BitVec.ofNat 64 (natRemainder (lowBits i.width s.a).toNat (lowBits i.width s.b).toNat))

/-- DIVS at each width completes with the truncated quotient and the remainder of the two's-complement operands, as
W-bit patterns zero-filled above; the quotient MIN / −1 wraps to MIN (R110, R112; R111, which the spec derives). -/
def Obligations.SignedDivides : Prop :=
  ∀ (i : Instr) (s : State), i ∈ [Instr.divs8, .divs16, .divs32, .divs64] →
    Responds i s
      (toPort (BitVec.ofInt i.width (intQuotient (lowBits i.width s.a).toInt (lowBits i.width s.b).toInt)))
      (toPort (BitVec.ofInt i.width (intRemainder (lowBits i.width s.a).toInt (lowBits i.width s.b).toInt)))

/-- The adapter at every sign combination (R111, which the spec derives from R110 and R101): the remainder is smaller
than the divisor and has the dividend's sign or is zero, `(a/b)*b + (a%b) = a` modulo 2^W, and MIN / −1 is (MIN, 0). -/
def Obligations.SignedDivideLaws : Prop :=
  ∀ W ∈ [8, 16, 32, 64], ∀ a b : BitVec W,
    (b ≠ 0#W →
      (divideSigned a b).2.toInt.natAbs < b.toInt.natAbs ∧
      ((divideSigned a b).2 = 0#W ∨ (divideSigned a b).2.msb = a.msb) ∧
      (divideSigned a b).1 * b + (divideSigned a b).2 = a) ∧
    divideSigned (BitVec.intMin W) (BitVec.allOnes W) = (BitVec.intMin W, 0#W) ∧
    divideSigned a 0#W = (0#W, 0#W) ∧
    divideSigned 0#W b = (0#W, 0#W)

/-- A narrow divide on the 32-bit engine gives what an engine of its own width would (R103, derived there). -/
def Obligations.NarrowDividesMatchTheirOwnWidth : Prop :=
  ∀ (W : Nat) (n d : BitVec W), W ≤ 32 ∨ W = 64 → divideUnsigned n d = udiv n d

/-! ## Integer multiply (41_integer_multiply.md) -/

/-- The shift-and-add product is `P(W, a, b) = (s_W(a)·s_W(b)) mod 2^(2W)`, it is exact as a signed 2W-bit value, and its
low W bits are those of the unsigned product (R130, R131; the last two derived there). -/
def Obligations.ShiftAndAddIsTheExactProduct : Prop :=
  ∀ (W : Nat) (a b : BitVec W),
    product a b = BitVec.ofInt (2 * W) (a.toInt * b.toInt) ∧
    (product a b).toInt = a.toInt * b.toInt ∧
    (product a b).toNat % 2 ^ W = (a.toNat * b.toNat) % 2 ^ W

/-- The slices of the product: high and low half put together are the product, the arithmetic shift rounds toward −∞,
and the shifts by 0 and W are the low and the high half (R132, whose last two claims are derived there). -/
def Obligations.ProductSlices : Prop :=
  ∀ (W : Nat) (a b : BitVec W),
    (productHigh a b).toNat * 2 ^ W + (productLow a b).toNat = (product a b).toNat ∧
    (∀ f, ((product a b).sshiftRight f).toInt = ⌊((a.toInt * b.toInt : ℤ) : ℚ) / 2 ^ f⌋) ∧
    productShifted 0 a b = productLow a b ∧
    productShifted W a b = productHigh a b

/-- R133 to R135: MUL is selected by its command and completes with the full signed product on `res0`, 0 on `res1`. -/
def Obligations.FullProducts : Prop :=
  decode 0x0041#16 = .ok .mul8 ∧ decode 0x0051#16 = .ok .mul16 ∧ decode 0x0061#16 = .ok .mul32 ∧
  ∀ s : State,
    Responds .mul8 s (toPort (BitVec.ofInt 16 ((lowBits 8 s.a).toInt * (lowBits 8 s.b).toInt))) 0#64 ∧
    Responds .mul16 s (toPort (BitVec.ofInt 32 ((lowBits 16 s.a).toInt * (lowBits 16 s.b).toInt))) 0#64 ∧
    Responds .mul32 s (BitVec.ofInt 64 ((lowBits 32 s.a).toInt * (lowBits 32 s.b).toInt)) 0#64

/-- R136 to R138: MULL is selected by its command and completes with the wraparound product, the same for signed and
unsigned readings of the operands. -/
def Obligations.LowProducts : Prop :=
  decode 0x0042#16 = .ok .mull8 ∧ decode 0x0052#16 = .ok .mull16 ∧ decode 0x0062#16 = .ok .mull32 ∧
  ∀ (i : Instr) (s : State), i ∈ [Instr.mull8, .mull16, .mull32] →
    Responds i s (toPort (BitVec.ofInt i.width ((lowBits i.width s.a).toInt * (lowBits i.width s.b).toInt))) 0#64 ∧
    Responds i s (toPort (BitVec.ofNat i.width ((lowBits i.width s.a).toNat * (lowBits i.width s.b).toNat))) 0#64

/-- MULH is selected by its command and completes with the upper W bits of the signed product, which is all ones for a
negative product of magnitude at most 2^W (R139 to R141; the last clause derived in R139). -/
def Obligations.HighProducts : Prop :=
  decode 0x0043#16 = .ok .mulh8 ∧ decode 0x0053#16 = .ok .mulh16 ∧ decode 0x0063#16 = .ok .mulh32 ∧
  ∀ (i : Instr) (s : State), i ∈ [Instr.mulh8, .mulh16, .mulh32] →
    Responds i s
      (toPort (BitVec.ofInt i.width (((lowBits i.width s.a).toInt * (lowBits i.width s.b).toInt) / 2 ^ i.width))) 0#64 ∧
    ((lowBits i.width s.a).toInt * (lowBits i.width s.b).toInt < 0 →
      -(2 ^ i.width : Int) ≤ (lowBits i.width s.a).toInt * (lowBits i.width s.b).toInt →
      Responds i s (toPort (BitVec.allOnes i.width)) 0#64)

/-- R143 to R145: MULQ is selected by its command at every fraction width and completes with the product shifted right
arithmetically by `f`, rounding toward −∞, cut to W bits. -/
def Obligations.ShiftedProducts : Prop :=
  (∀ f : BitVec 6, f.toNat < 16 → decode (0x0044#16 ||| f.setWidth 16 <<< 8) = .ok (.mulq8 f)) ∧
  (∀ f : BitVec 6, f.toNat < 32 → decode (0x0054#16 ||| f.setWidth 16 <<< 8) = .ok (.mulq16 f)) ∧
  (∀ f : BitVec 6, decode (0x0064#16 ||| f.setWidth 16 <<< 8) = .ok (.mulq32 f)) ∧
  ∀ (f : BitVec 6) (i : Instr) (s : State), i ∈ [Instr.mulq8 f, .mulq16 f, .mulq32 f] →
    Responds i s
      (toPort (BitVec.ofInt i.width
        ⌊(((lowBits i.width s.a).toInt * (lowBits i.width s.b).toInt : ℤ) : ℚ) / 2 ^ f.toNat⌋)) 0#64

/-- The low half of MUL's result is MULL's and its high half is MULH's (R44, derived there from R132). -/
def Obligations.HalvesOfTheFullProduct : Prop :=
  ∀ (s : State) (w : MultiplyWidth) (full high : Instr),
    (w, full, high) ∈ [(MultiplyWidth.w8, Instr.mul8, Instr.mulh8), (.w16, .mul16, .mulh16), (.w32, .mul32, .mulh32)] →
    ∃ p l h, Responds full s p 0#64 ∧ Responds (mullAt w) s l 0#64 ∧ Responds high s h 0#64 ∧
      p = h <<< full.width ||| l

/-! ## Binary32 format, rounding and special cases (42_float_common.md) -/

/-- R161: the classifier maps every pattern to exactly one class, by its fields. -/
def Obligations.ClassifierFollowsTheFields : Prop :=
  ∀ x : B32,
    (expf x = 0#8 → frac x = 0#23 → classify x = .zero (sgn x)) ∧
    (expf x = 0#8 → frac x ≠ 0#23 → classify x = .subnormal (sgn x) (frac x)) ∧
    (1 ≤ (expf x).toNat → (expf x).toNat ≤ 254 → classify x = .normal (sgn x) (expf x) (frac x)) ∧
    (expf x = 0xFF#8 → frac x = 0#23 → classify x = .inf (sgn x)) ∧
    (expf x = 0xFF#8 → frac x ≠ 0#23 → classify x = .nan (sgn x) (x.getLsbD 22) (frac x))

/-- Normalisation gives every nonzero finite pattern, and no other, a 24-bit significand with its leading bit set, and
`|val(x)| = sig · 2^(exp − 23)` (R163). -/
def Obligations.NormaliseKeepsTheValue : Prop :=
  ∀ x : B32,
    ((normalise x).isSome = true ↔ isFinite x = true ∧ isZero x = false) ∧
    ∀ sig e, normalise x = some (sig, e) →
      2 ^ 23 ≤ sig ∧ sig < 2 ^ 24 ∧ |val x| = (sig : ℚ) * (2 : ℚ) ^ (e - 23)

/-- R166: the integer rounding is the rule's, and the guard, round and sticky bits compute it, RNE rounding up exactly
when `G and (R or S or L)` (that ties go to even is the spec's reading of the source, D13). -/
def Obligations.RoundingFollowsTheRule : Prop :=
  (∀ (v : Ratio) (m : Rounding), 0 < v.den → (v.round m : ℤ) = roundExact m ((v.num : ℚ) / v.den)) ∧
  ∀ (v : ℚ) (acc : Acc) (m : Rounding), 0 ≤ v → (acc.bits : ℤ) = ⌊4 * v⌋ → (acc.sticky = true ↔ (⌊4 * v⌋ : ℚ) ≠ 4 * v) →
    (acc.rounded m : ℤ) = roundExact m v

/-- R167, with R170: packing a positive magnitude gives the pattern that the rule gives, under both settings of
`UNDERFLOW` and in both modes, overflow giving an infinity in both (the flush after rounding
and the overflow threshold are the spec's readings of the source, D12 and D23). -/
def Obligations.PackingFollowsTheRule : Prop :=
  ∀ (uf : Underflow) (m : Rounding) (s : Bool) (v : Ratio), 0 < v.num → 0 < v.den →
    RoundPacked uf m s ((v.num : ℚ) / v.den) (roundPack uf m s v)

/-- Correct rounding (R169): a finite result of gradual packing under RNE is at least as near to the exact value as any
finite pattern. That it keeps the given sign is `PackingKeepsTheSign`. -/
def Obligations.GradualResultIsNearest : Prop :=
  ∀ (s : Bool) (v : Ratio) (y : B32), 0 < v.num → 0 < v.den →
    isFinite (roundPack .gradual .nearestEven s v) = true → isFinite y = true →
    |signFactor s * ((v.num : ℚ) / v.den) - val (roundPack .gradual .nearestEven s v)| ≤
      |signFactor s * ((v.num : ℚ) / v.den) - val y|

/-- Packing keeps the given sign in every mode and setting: of a rounded result, of an infinity, of a flushed zero and of a
zero at subnormal precision (R167, R170; that a flushed result keeps its sign is the spec's reading, D12). -/
def Obligations.PackingKeepsTheSign : Prop :=
  ∀ (uf : Underflow) (m : Rounding) (s : Bool) (v : Ratio), sgn (roundPack uf m s v) = s

/-- Packing overflows to the infinity of its sign exactly from the value on that rounds to 2^128: under RNE
(2^24 − 1/2)·2^104, under RTZ 2^128 itself (R170 with R166 and R167). -/
def Obligations.OverflowThresholds : Prop :=
  ∀ (uf : Underflow) (s : Bool) (v : Ratio), 0 < v.num → 0 < v.den →
    (roundPack uf .nearestEven s v = signedInf s ↔ ((2 : ℚ) ^ 24 - 1 / 2) * 2 ^ 104 ≤ (v.num : ℚ) / v.den) ∧
    (roundPack uf .towardZero s v = signedInf s ↔ (2 : ℚ) ^ 128 ≤ (v.num : ℚ) / v.den)

/-- Where flushing and gradual underflow give different results, the gradual one is subnormal or the smallest normal and
the flushed one is the zero of the same sign (90_conflicts.md C6). -/
def Obligations.FlushDiffersOnlyBelowTheNormalRange : Prop :=
  ∀ (m : Rounding) (s : Bool) (v : Ratio), 0 < v.num → 0 < v.den →
    roundPack .flushToZero m s v ≠ roundPack .gradual m s v →
    roundPack .flushToZero m s v = signedZero s ∧
    ((∃ f, classify (roundPack .gradual m s v) = .subnormal s f) ∨
      roundPack .gradual m s v = ofFields s 0x01#8 0#23)

/-- R172: a NaN that FADD, FSUB, FMUL or FDIV gives is always quiet, exponent 0xFF and bit 22 set, whatever the parameter
gives for the other bits. FNEG is not among them: it returns no `QNAN` and keeps a signalling NaN signalling (R207). -/
def Obligations.ArithmeticNaNResultsAreQuiet : Prop :=
  (∀ (cmd : Cmd) (a b : B32),
    (qnan cmd a b).extractLsb' 23 8 = 0xFF#8 ∧ (qnan cmd a b).getLsbD 22 = true ∧ isQuietNaN (qnan cmd a b) = true) ∧
  ∀ (i : Instr) (s : State) (r0 r1 : Port), i ∈ [Instr.fadd, .fsub, .fmul, .fdiv] → Responds i s r0 r1 →
    isNaN (lowBits 32 r0) = true → isQuietNaN (lowBits 32 r0) = true

/-- A NaN operand on either side decides the result of a two-operand float operation before anything else: the quiet NaN
of the operation's own command and of the request's operands (R171 step 1, R254; log 9). -/
def Obligations.NaNOperandDecidesFirst : Prop :=
  ∀ (i : Instr) (s : State), i ∈ [Instr.fadd, .fsub, .fmul, .fdiv] →
    isNaN (lowBits 32 s.a) = true ∨ isNaN (lowBits 32 s.b) = true →
    Responds i s (toPort (qnan (encode i) (lowBits 32 s.a) (lowBits 32 s.b))) 0#64

/-! ## Binary32 arithmetic (43_float_arith.md) -/

/-- FADD completes with the result of R190: the special cases in the rule's order, then the exact rational sum rounded
to nearest even and packed. The entries for infinities and zeros are the spec's own supply (R190, R191 "from general
knowledge", D14). -/
def Obligations.AddGivesTheRoundedSum : Prop :=
  decode 0x0028#16 = .ok .fadd ∧
  ∀ s : State, ∃ z, Responds .fadd s (toPort z) 0#64 ∧
    if isNaN (lowBits 32 s.a) ∨ isNaN (lowBits 32 s.b) then
      z = qnan 0x0028#16 (lowBits 32 s.a) (lowBits 32 s.b)
    else SumRule Config.underflow (qnan 0x0028#16 (lowBits 32 s.a) (lowBits 32 s.b)) (lowBits 32 s.a) (lowBits 32 s.b) z

/-- FSUB completes with FADD's result on the second operand with its sign flipped, the NaN check first and QNAN its own
(R195 and D26; that QNAN sees the request's operands is log 9). -/
def Obligations.SubtractAddsTheNegatedOperand : Prop :=
  decode 0x0029#16 = .ok .fsub ∧
  ∀ s : State, ∃ z, Responds .fsub s (toPort z) 0#64 ∧
    if isNaN (lowBits 32 s.a) ∨ isNaN (lowBits 32 s.b) then
      z = qnan 0x0029#16 (lowBits 32 s.a) (lowBits 32 s.b)
    else
      SumRule Config.underflow (qnan 0x0029#16 (lowBits 32 s.a) (lowBits 32 s.b)) (lowBits 32 s.a)
        (lowBits 32 s.b ^^^ 0x80000000#32) z

/-- FMUL completes with the result of R198: the special cases in the rule's order, then the exact rational product
rounded to nearest even and packed (the entries marked "from general knowledge" are the spec's own supply, D14). -/
def Obligations.MultiplyGivesTheRoundedProduct : Prop :=
  decode 0x002A#16 = .ok .fmul ∧
  ∀ s : State, ∃ z, Responds .fmul s (toPort z) 0#64 ∧
    ProductRule Config.underflow (qnan 0x002A#16 (lowBits 32 s.a) (lowBits 32 s.b)) (lowBits 32 s.a) (lowBits 32 s.b) z

/-- FDIV completes with the result of R202: the special cases in the rule's order, then the exact rational quotient
rounded by `FDIV_ROUND` and packed (R204's entries are the spec's own supply, D14). -/
def Obligations.DivideGivesTheRoundedQuotient : Prop :=
  decode 0x002B#16 = .ok .fdiv ∧
  ∀ s : State, ∃ z, Responds .fdiv s (toPort z) 0#64 ∧
    QuotientRule Config.underflow Config.fdivRound (qnan 0x002B#16 (lowBits 32 s.a) (lowBits 32 s.b)) (lowBits 32 s.a)
      (lowBits 32 s.b) z

/-- 1.0 / 3.0 is 0x3EAAAAAB when `FDIV_ROUND` is nearest_even and 0x3EAAAAAA when it is toward_zero (R202's worked
example, 95_test_vectors.md S5). -/
def Obligations.OneThirdInBothModes : Prop :=
  ∀ s : State, lowBits 32 s.a = 0x3F800000#32 → lowBits 32 s.b = 0x40400000#32 →
    Responds .fdiv s
      (match Config.fdivRound with
        | .nearestEven => 0x3EAAAAAB#64
        | .towardZero => 0x3EAAAAAA#64) 0#64

/-- R207: FNEG is selected by its command and completes with `a[31:0] xor 0x80000000`, for every pattern. -/
def Obligations.NegateFlipsTheSign : Prop :=
  decode 0x002C#16 = .ok .fneg ∧
  ∀ s : State, Responds .fneg s ((s.a &&& 0xFFFFFFFF#64) ^^^ 0x80000000#64) 0#64

/-- R210, with R211: FCMP is selected by its command and completes with 2 when an operand is a NaN, else −1, 0 or 1 by
the order of the extended reals, +0 and −0 comparing equal (the numbers of the codes are the spec's choice, D8). -/
def Obligations.CompareOrdersByValue : Prop :=
  decode 0x002D#16 = .ok .fcmp ∧
  ∀ s : State, ∃ c : B32, Responds .fcmp s (toPort c) 0#64 ∧
    (¬Ordered (lowBits 32 s.a) (lowBits 32 s.b) → c = 0x00000002#32) ∧
    (Ordered (lowBits 32 s.a) (lowBits 32 s.b) →
      (Precedes (lowBits 32 s.a) (lowBits 32 s.b) → c = 0xFFFFFFFF#32) ∧
      (SameValue (lowBits 32 s.a) (lowBits 32 s.b) → c = 0x00000000#32) ∧
      (Precedes (lowBits 32 s.b) (lowBits 32 s.a) → c = 0x00000001#32) ∧
      (Precedes (lowBits 32 s.a) (lowBits 32 s.b) ∨ SameValue (lowBits 32 s.a) (lowBits 32 s.b) ∨
        Precedes (lowBits 32 s.b) (lowBits 32 s.a)))

/-- Each pseudo-operation expands into one legal command, and its result is the quotient, the remainder, the unsigned low
half, or 1 exactly when the relation holds (R68). The values of SDIV and SREM are R111's, which the spec derives from
R110 and R101, and those of MULLU are R130's; the comparison codes are R210's (D8). -/
def Obligations.PseudoOperationsMeanWhatTheyName : Prop :=
  (∀ p : Pseudo, decode (encode p.expand) = .ok p.expand) ∧
  (∀ (w : DivideWidth) (a b : Port),
    (Pseudo.udiv w).result a b = some (BitVec.ofNat 64
      (natQuotient (lowBits (divuAt w).width a).toNat (lowBits (divuAt w).width b).toNat)) ∧
    (Pseudo.urem w).result a b = some (BitVec.ofNat 64
      (natRemainder (lowBits (divuAt w).width a).toNat (lowBits (divuAt w).width b).toNat)) ∧
    (Pseudo.sdiv w).result a b = some (toPort (BitVec.ofInt (divsAt w).width
      (intQuotient (lowBits (divsAt w).width a).toInt (lowBits (divsAt w).width b).toInt))) ∧
    (Pseudo.srem w).result a b = some (toPort (BitVec.ofInt (divsAt w).width
      (intRemainder (lowBits (divsAt w).width a).toInt (lowBits (divsAt w).width b).toInt)))) ∧
  (∀ (w : MultiplyWidth) (a b : Port),
    (Pseudo.mullu w).result a b = some (toPort (BitVec.ofNat (mullAt w).width
      ((lowBits (mullAt w).width a).toNat * (lowBits (mullAt w).width b).toNat)))) ∧
  ∀ (rel : Relation) (a b : Port),
    (rel.Holds (lowBits 32 a) (lowBits 32 b) → (Pseudo.compare rel).result a b = some 1#64) ∧
    (¬rel.Holds (lowBits 32 a) (lowBits 32 b) → (Pseudo.compare rel).result a b = some 0#64)

/-! ## Conversions (44_conversions.md) -/

/-- R231 and R232: ITOF is selected by its command and completes with +0 for 0, else with the integer rounded to nearest
even and packed, its sign the integer's. -/
def Obligations.IntegersRoundToFloats : Prop :=
  decode 0x002E#16 = .ok .itofU32 ∧ decode 0x006E#16 = .ok .itofS32 ∧
  ∀ s : State,
    (∃ z, Responds .itofU32 s (toPort z) 0#64 ∧
      if (lowBits 32 s.a).toNat = 0 then z = 0x00000000#32
      else RoundPacked Config.underflow .nearestEven false ((lowBits 32 s.a).toNat : ℚ) z) ∧
    (∃ z, Responds .itofS32 s (toPort z) 0#64 ∧
      if (lowBits 32 s.a).toInt = 0 then z = 0x00000000#32
      else RoundPacked Config.underflow .nearestEven (decide ((lowBits 32 s.a).toInt < 0))
        |((lowBits 32 s.a).toInt : ℚ)| z)

/-- `UNDERFLOW` has no effect on ITOF, and an integer with at most 24 significant bits converts exactly (R230, derived
there). -/
def Obligations.IntegerConversionIgnoresUnderflow : Prop :=
  ∀ (s : Bool) (n : Nat),
    intToFloat .flushToZero s n = intToFloat .gradual s n ∧
    (∀ uf, n < 2 ^ 32 → FitsSignificand n → val (intToFloat uf s n) = if n = 0 then 0 else signFactor s * n)

/-- FTOI (R235, R236) is selected by its command and completes with the truncated value where it is in range, and with
`FTOI_OOB` of its own command and operand for a NaN, an infinity or a value out of range (that the range is tested after
truncation is the spec's choice, D34; the arguments of FTOI_OOB are log 10). -/
def Obligations.FloatsTruncateToIntegers : Prop :=
  decode 0x002F#16 = .ok .ftoiU32 ∧ decode 0x006F#16 = .ok .ftoiS32 ∧
  ∀ s : State,
    (∃ z, Responds .ftoiU32 s (toPort z) 0#64 ∧
      TruncRule (Config.ftoiOob 0x002F#16 (lowBits 32 s.a)) 0 (2 ^ 32 - 1) (lowBits 32 s.a) z) ∧
    (∃ z, Responds .ftoiS32 s (toPort z) 0#64 ∧
      TruncRule (Config.ftoiOob 0x006F#16 (lowBits 32 s.a)) (-2 ^ 31) (2 ^ 31 - 1) (lowBits 32 s.a) z)

/-- The round trip (R237, derived there): an integer with at most 24 significant bits, so every one of magnitude at most
2^24, comes back from its float unchanged, signed and unsigned. -/
def Obligations.RoundTripOfShortIntegers : Prop :=
  (∀ n : B32, FitsSignificand n.toInt.natAbs → ∀ s t : State, lowBits 32 s.a = n →
    ∃ z, Responds .itofS32 s (toPort z) 0#64 ∧ (lowBits 32 t.a = z → Responds .ftoiS32 t (toPort n) 0#64)) ∧
  (∀ n : B32, FitsSignificand n.toNat → ∀ s t : State, lowBits 32 s.a = n →
    ∃ z, Responds .itofU32 s (toPort z) 0#64 ∧ (lowBits 32 t.a = z → Responds .ftoiU32 t (toPort n) 0#64)) ∧
  ∀ n : Nat, n ≤ 2 ^ 24 → FitsSignificand n

/-! ## The datapaths beside the result rules (all informative in the spec) -/

/-- The aligned adder (R192) gives FADD's result on nonzero finite operands, under both settings of `UNDERFLOW`. -/
def Obligations.AlignedAdderMeetsTheSum : Prop :=
  ∀ (uf : Underflow) (nan a b : B32) (x y : Nat × Int), normalise a = some x → normalise b = some y →
    addPath uf (sgn a) x (sgn b) y = floatAdd uf nan a b

/-- The 48-bit product path (R199) gives FMUL's result on nonzero finite operands. -/
def Obligations.SignificandProductMeetsTheProduct : Prop :=
  ∀ (uf : Underflow) (nan a b : B32) (x y : Nat × Int), normalise a = some x → normalise b = some y →
    mulPath uf (sgn a ^^ sgn b) x y = floatMul uf nan a b

/-- The 26-bit long division with its sticky bit (R203) gives FDIV's result on nonzero finite operands, in both modes and
under both settings of `UNDERFLOW`. -/
def Obligations.LongDivisionMeetsTheQuotient : Prop :=
  ∀ (uf : Underflow) (m : Rounding) (nan a b : B32) (x y : Nat × Int), normalise a = some x → normalise b = some y →
    divPath uf m (sgn a ^^ sgn b) x y = floatDiv uf m nan a b

/-- The shift-and-round conversion (R233) gives ITOF's result on every nonzero magnitude. -/
def Obligations.IntegerShiftMeetsTheConversion : Prop :=
  ∀ (uf : Underflow) (s : Bool) (n : Nat), 0 < n → n < 2 ^ 32 → intPath uf s n = intToFloat uf s n
end

