-- ==== Sys2Proof/Laws/State.lean ====
section
/-! SUPPORT. One lemma per field and update of State, so that no later proof unfolds a record update, and the same for
the fields of a response. -/

namespace Sys2Proof.Machine

variable (s : State) (r : Request) (r0 r1 : Port) (draw nbits w : Nat)

@[simp] theorem State.present_cmd : (s.present r).cmd = r.cmd := rfl
@[simp] theorem State.present_a : (s.present r).a = r.a := rfl
@[simp] theorem State.present_b : (s.present r).b = r.b := rfl
@[simp] theorem State.present_requested : (s.present r).requested = true := rfl
@[simp] theorem State.present_resetAsserted : (s.present r).resetAsserted = s.resetAsserted := rfl
@[simp] theorem State.present_response : (s.present r).response = s.response := rfl

@[simp] theorem State.respond_cmd : (s.respond r0 r1).cmd = s.cmd := rfl
@[simp] theorem State.respond_a : (s.respond r0 r1).a = s.a := rfl
@[simp] theorem State.respond_b : (s.respond r0 r1).b = s.b := rfl
@[simp] theorem State.respond_requested : (s.respond r0 r1).requested = false := rfl
@[simp] theorem State.respond_resetAsserted : (s.respond r0 r1).resetAsserted = s.resetAsserted := rfl
@[simp] theorem State.respond_response :
    (s.respond r0 r1).response = some { res0 := r0, res1 := r1, illegal := false } := rfl

@[simp] theorem State.respondIllegal_cmd : (s.respondIllegal draw).cmd = s.cmd := rfl
@[simp] theorem State.respondIllegal_a : (s.respondIllegal draw).a = s.a := rfl
@[simp] theorem State.respondIllegal_b : (s.respondIllegal draw).b = s.b := rfl
@[simp] theorem State.respondIllegal_requested : (s.respondIllegal draw).requested = false := rfl
@[simp] theorem State.respondIllegal_resetAsserted : (s.respondIllegal draw).resetAsserted = s.resetAsserted := rfl
@[simp] theorem State.respondIllegal_response :
    (s.respondIllegal draw).response = some (illegalResponse draw) := rfl

@[simp] theorem State.idle_cmd : s.idle.cmd = s.cmd := rfl
@[simp] theorem State.idle_a : s.idle.a = s.a := rfl
@[simp] theorem State.idle_b : s.idle.b = s.b := rfl
@[simp] theorem State.idle_requested : s.idle.requested = s.requested := rfl
@[simp] theorem State.idle_resetAsserted : s.idle.resetAsserted = s.resetAsserted := rfl
@[simp] theorem State.idle_response : s.idle.response = none := rfl

@[simp] theorem State.assertReset_cmd : s.assertReset.cmd = s.cmd := rfl
@[simp] theorem State.assertReset_a : s.assertReset.a = s.a := rfl
@[simp] theorem State.assertReset_b : s.assertReset.b = s.b := rfl
@[simp] theorem State.assertReset_requested : s.assertReset.requested = s.requested := rfl
@[simp] theorem State.assertReset_resetAsserted : s.assertReset.resetAsserted = true := rfl
@[simp] theorem State.assertReset_response : s.assertReset.response = s.response := rfl

@[simp] theorem State.afterReset_eq : s.afterReset = State.reset := rfl
@[simp] theorem State.reset_requested : State.reset.requested = false := rfl
@[simp] theorem State.reset_resetAsserted : State.reset.resetAsserted = false := rfl
@[simp] theorem State.reset_response : State.reset.response = none := rfl

@[simp] theorem State.withFetchWord_cmd :
    (s.withFetchWord nbits w).cmd = BitVec.ofNat 16 (w % 2 ^ nbits) := rfl
@[simp] theorem State.withFetchWord_a : (s.withFetchWord nbits w).a = s.a := rfl
@[simp] theorem State.withFetchWord_b : (s.withFetchWord nbits w).b = s.b := rfl
@[simp] theorem State.withFetchWord_requested : (s.withFetchWord nbits w).requested = true := rfl
@[simp] theorem State.withFetchWord_resetAsserted : (s.withFetchWord nbits w).resetAsserted = false := rfl
@[simp] theorem State.withFetchWord_response : (s.withFetchWord nbits w).response = s.response := rfl

@[simp] theorem illegalResponse_illegal : (illegalResponse draw).illegal = true := rfl

@[simp] theorem State.operandA_eq (W : Nat) : s.operandA W = lowBits W s.a := rfl
@[simp] theorem State.operandB_eq (W : Nat) : s.operandB W = lowBits W s.b := rfl

end Sys2Proof.Machine
end

