-- ==== Sys2Proof/Laws/Ops.lean ====
section
/-! SUPPORT. For each shared operation the one lemma that says everything it can do; callers cite it and do not unfold
the operation. -/

namespace Sys2Proof.Machine

/-- Completion in the terms of claims is completion by the machine's own response. -/
theorem responds_iff (i : Instr) (s : State) (r0 r1 : Port) :
    Responds i s r0 r1 ↔ exec i s = .next (s.respond r0 r1) := Iff.rfl

/-- Everything `complete` can do. -/
theorem complete_spec (s : State) (r0 r1 : Port) : complete s r0 r1 = .next (s.respond r0 r1) := rfl

theorem completeDivu_spec (W : Nat) (s : State) :
    completeDivu W s =
      .next (s.respond (toPort (divideUnsigned (lowBits W s.a) (lowBits W s.b)).1)
        (toPort (divideUnsigned (lowBits W s.a) (lowBits W s.b)).2)) := rfl

theorem completeDivs_spec (W : Nat) (s : State) :
    completeDivs W s =
      .next (s.respond (toPort (divideSigned (lowBits W s.a) (lowBits W s.b)).1)
        (toPort (divideSigned (lowBits W s.a) (lowBits W s.b)).2)) := rfl

theorem completeMul_spec (W : Nat) (s : State) :
    completeMul W s = .next (s.respond (toPort (product (lowBits W s.a) (lowBits W s.b))) 0#64) := rfl

theorem completeMull_spec (W : Nat) (s : State) :
    completeMull W s = .next (s.respond (toPort (productLow (lowBits W s.a) (lowBits W s.b))) 0#64) := rfl

theorem completeMulh_spec (W : Nat) (s : State) :
    completeMulh W s = .next (s.respond (toPort (productHigh (lowBits W s.a) (lowBits W s.b))) 0#64) := rfl

theorem completeMulq_spec (W : Nat) (f : BitVec 6) (s : State) :
    completeMulq W f s =
      .next (s.respond (toPort (productShifted f.toNat (lowBits W s.a) (lowBits W s.b))) 0#64) := rfl

theorem completeFloat_spec (i : Instr) (op : B32 → B32 → B32 → B32) (s : State) :
    completeFloat i op s =
      .next (s.respond (toPort (op (qnan (encode i) (lowBits 32 s.a) (lowBits 32 s.b)) (lowBits 32 s.a)
        (lowBits 32 s.b))) 0#64) := rfl

theorem completeFtoi_spec (i : Instr) (lo hi : Int) (s : State) :
    completeFtoi i lo hi s =
      .next (s.respond (toPort (floatToInt (Config.ftoiOob (encode i) (lowBits 32 s.a)) lo hi (lowBits 32 s.a))) 0#64) :=
  rfl

/-- A result of width W stands in the low W bits of its port, zeros above. -/
theorem toPort_toNat {W : Nat} (v : BitVec W) (h : W ≤ 64) : (toPort v).toNat = v.toNat := by
  simp only [toPort, BitVec.toNat_setWidth]
  exact Nat.mod_eq_of_lt (lt_of_lt_of_le v.isLt (Nat.pow_le_pow_right (by decide) h))

/-- The operand a port carries at width W. -/
theorem lowBits_toNat (W : Nat) (p : Port) : (lowBits W p).toNat = p.toNat % 2 ^ W := by
  simp [lowBits]

/-- A result put on a port is read back at its own width. -/
theorem lowBits_toPort {W : Nat} (v : BitVec W) (h : W ≤ 64) : lowBits W (toPort v) = v := by
  apply BitVec.eq_of_toNat_eq
  rw [lowBits_toNat, toPort_toNat v h, Nat.mod_eq_of_lt v.isLt]

/-- A magnitude as a natural number is the absolute value, the minimum value included. -/
theorem magnitude_toNat {W : Nat} (v : BitVec W) : (magnitude v).toNat = v.toInt.natAbs := by
  unfold magnitude negateIf
  rcases hm : v.msb with _ | _
  · simp [BitVec.toInt_eq_msb_cond, hm]
  · have h1 : v.toNat < 2 ^ W := v.isLt
    have h2 : 0 < v.toNat := by
      rcases Nat.eq_zero_or_pos v.toNat with h | h
      · have : v = 0#W := BitVec.eq_of_toNat_eq (by simpa using h)
        subst this
        simp at hm
      · exact h
    simp only [if_true, BitVec.toNat_sub, BitVec.toNat_ofNat, Nat.zero_mod, Nat.add_zero, BitVec.toInt_eq_msb_cond, hm]
    rw [Nat.mod_eq_of_lt (by omega)]
    have h3 : ((2 ^ W : Nat) : Int) = (2 : Int) ^ W := by push_cast; rfl
    omega

/-- Everything a step can do. -/
theorem step_cases (s : State) :
    (s.resetAsserted = true ∧ step s = .next State.reset) ∨
    (s.resetAsserted = false ∧ s.requested = false ∧ step s = .next s.idle) ∨
    (s.resetAsserted = false ∧ s.requested = true ∧ ∃ i, decode s.cmd = .ok i ∧ step s = exec i s) ∨
    (s.resetAsserted = false ∧ s.requested = true ∧ isLegal s.cmd = false ∧
      step s = .fault (.illegalCommand s.cmd)) := by
  unfold step isLegal
  rcases hr : s.resetAsserted with _ | _
  · rcases hq : s.requested with _ | _
    · simp
    · rcases hd : decode s.cmd with _ | i <;> simp
  · simp

end Sys2Proof.Machine
end

