-- ==== Sys2Proof/Laws/Float.lean ====
section
/-! SUPPORT. The fields of a binary32 pattern, its class by its fields, and everything that rounding and packing can
give. -/

namespace Sys2Proof.Machine

@[simp] theorem sgn_ofFields (s : Bool) (e : BitVec 8) (m : BitVec 23) : sgn (ofFields s e m) = s := by
  simp only [sgn, ofFields, BitVec.getLsbD_append]
  simp

@[simp] theorem expf_ofFields (s : Bool) (e : BitVec 8) (m : BitVec 23) : expf (ofFields s e m) = e := by
  apply BitVec.eq_of_getLsbD_eq
  intro k hk
  simp only [expf, ofFields, BitVec.getLsbD_extractLsb', BitVec.getLsbD_append]
  simp [hk, show ¬(23 + k < 23) by omega]

@[simp] theorem frac_ofFields (s : Bool) (e : BitVec 8) (m : BitVec 23) : frac (ofFields s e m) = m := by
  apply BitVec.eq_of_getLsbD_eq
  intro k hk
  simp only [frac, ofFields, BitVec.getLsbD_extractLsb', BitVec.getLsbD_append]
  simp [hk]

/-- A pattern is its three fields. -/
theorem ofFields_eta (x : B32) : ofFields (sgn x) (expf x) (frac x) = x := by
  apply BitVec.eq_of_getLsbD_eq
  intro k hk
  simp only [ofFields, BitVec.getLsbD_append, expf, frac, sgn, BitVec.getLsbD_extractLsb', BitVec.getLsbD_ofBool]
  by_cases h1 : k < 23
  · simp [h1]
  · by_cases h2 : k - 23 < 8
    · simp [h1, h2, show 23 + (k - 23) = k by omega]
    · have : k = 31 := by omega
      subst this
      simp

/-- Two patterns with the same fields are the same. -/
theorem eq_of_fields {x y : B32} (hs : sgn x = sgn y) (he : expf x = expf y) (hf : frac x = frac y) : x = y := by
  rw [← ofFields_eta x, ← ofFields_eta y, hs, he, hf]

/-- A pattern whose exponent field is not all ones is finite. -/
theorem isFinite_of_expf {x : B32} (h : expf x ≠ 0xFF#8) : isFinite x = true := by
  unfold isFinite isInf isNaN classify
  split_ifs <;> simp

/-- A pattern whose exponent field is not all ones is no NaN. -/
theorem isNaN_of_expf {x : B32} (h : expf x ≠ 0xFF#8) : isNaN x = false := by
  have := isFinite_of_expf h
  simp only [isFinite, Bool.and_eq_true, Bool.not_eq_true'] at this
  exact this.2

@[simp] theorem classify_signedZero (s : Bool) : classify (signedZero s) = .zero s := by
  simp [classify, signedZero]

@[simp] theorem classify_signedInf (s : Bool) : classify (signedInf s) = .inf s := by
  simp [classify, signedInf]

/-- The quiet bit and the exponent of `QNAN` are fixed, so it is a NaN whatever the parameter's bits. -/
theorem isNaN_qnan (cmd : Cmd) (a b : B32) : isNaN (qnan cmd a b) = true := by
  have hf : frac (qnan cmd a b) ≠ 0#23 := by
    simp only [qnan, frac_ofFields]
    intro h
    have := congrArg (fun v : BitVec 23 => v.getLsbD 22) h
    rw [BitVec.getLsbD_append] at this
    simp at this
  have he : expf (qnan cmd a b) = 0xFF#8 := by simp [qnan]
  simp [isNaN, classify, he, hf]

/-- Rounding gives the floor or the next integer. -/
theorem Ratio.round_floor_or_next (v : Ratio) (m : Rounding) :
    v.round m = v.num / v.den ∨ v.round m = v.num / v.den + 1 := by
  unfold Ratio.round
  cases m
  · simp only
    split_ifs <;> simp
  · simp

/-- Rounding toward zero is the floor. -/
@[simp] theorem Ratio.round_towardZero (v : Ratio) : v.round .towardZero = v.num / v.den := rfl

/-- Everything the end of packing can give. -/
theorem packRounded_cases (s : Bool) (M : Nat) (e : Int) :
    packRounded s M e = signedInf s ∨ packRounded s M e = signedZero s ∨
    ∃ E : Int, 1 ≤ E ∧ E ≤ 254 ∧ ∃ f, packRounded s M e = ofFields s (BitVec.ofInt 8 E) f := by
  unfold packRounded
  dsimp only
  generalize (if (M == 2 ^ 24) = true then e + 1 else e) + 127 = E
  generalize BitVec.ofNat 23 _ = f
  by_cases h1 : 255 ≤ E
  · exact .inl (if_pos h1)
  · by_cases h2 : E ≤ 0
    · exact .inr (.inl (by rw [if_neg h1, if_pos h2]))
    · exact .inr (.inr ⟨E, by omega, by omega, f, by rw [if_neg h1, if_neg h2]⟩)

/-- Everything packing can give: the end of packing, or a significand at subnormal precision. -/
theorem roundPack_cases (uf : Underflow) (m : Rounding) (s : Bool) (v : Ratio) :
    (v.floorLog2 < -126 ∧ uf = .gradual ∧ roundPack uf m s v = packSubnormal s ((v.scale 149).round m)) ∨
    (¬(v.floorLog2 < -126 ∧ uf = .gradual) ∧
      roundPack uf m s v = packRounded s ((v.scale (23 - v.floorLog2)).round m) v.floorLog2) := by
  unfold roundPack
  simp only
  split_ifs with h
  · exact .inl ⟨h.1, h.2, rfl⟩
  · exact .inr ⟨h, rfl⟩

/-- One digit of the engine's loop. -/
@[simp] theorem divLoop_zero {E : Nat} (n d : BitVec E) (w : DivWork E) : divLoop n d 0 w = w := rfl

@[simp] theorem divLoop_succ {E : Nat} (n d : BitVec E) (i : Nat) (w : DivWork E) :
    divLoop n d (i + 1) w = divLoop n d i (divStep n d i w) := rfl

/-- One iteration of the multiplier's loop. -/
@[simp] theorem mulLoop_zero {N : Nat} (y : BitVec N) (i : Nat) (w : MulWork N) : mulLoop y 0 i w = w := rfl

@[simp] theorem mulLoop_succ {N : Nat} (y : BitVec N) (k i : Nat) (w : MulWork N) :
    mulLoop y (k + 1) i w = mulLoop y k (i + 1) (mulStep y i w) := rfl

end Sys2Proof.Machine
end

