-- ==== Sys2Proof/Laws/Exact.lean ====
section
/-! SUPPORT. The machine's integers against the rationals of Safety.lean: one lemma for each function of exact values. -/

namespace Sys2Proof.Machine

theorem Ratio.scale_den_pos (v : Ratio) (k : Int) (h : 0 < v.den) : 0 < (v.scale k).den := by
  unfold Ratio.scale
  split_ifs
  · exact h
  · simpa [Nat.shiftLeft_eq] using h

theorem Ratio.scale_num_pos (v : Ratio) (k : Int) (h : 0 < v.num) : 0 < (v.scale k).num := by
  unfold Ratio.scale
  split_ifs
  · simpa [Nat.shiftLeft_eq] using h
  · exact h

/-- Scaling multiplies the value by a power of two. -/
theorem Ratio.scale_value (v : Ratio) (k : Int) :
    ((v.scale k).num : ℚ) / (v.scale k).den = (v.num : ℚ) / v.den * (2 : ℚ) ^ k := by
  unfold Ratio.scale
  split_ifs with h
  · obtain ⟨n, rfl⟩ := Int.eq_ofNat_of_zero_le h
    simp only [Int.toNat_natCast, Nat.shiftLeft_eq, Nat.cast_mul, Nat.cast_pow, Nat.cast_ofNat, zpow_natCast]
    ring
  · obtain ⟨n, hn⟩ := Int.eq_ofNat_of_zero_le (show 0 ≤ -k by omega)
    obtain rfl : k = -(n : Int) := by omega
    simp only [neg_neg, Int.toNat_natCast, Nat.shiftLeft_eq, Nat.cast_mul, Nat.cast_pow, Nat.cast_ofNat, zpow_neg,
      zpow_natCast]
    rw [div_mul_eq_div_div, div_eq_mul_inv (_ / _)]

/-- `1 ≤ v` says so of the value. -/
theorem Ratio.atLeastOne_iff (v : Ratio) (h : 0 < v.den) : v.atLeastOne = true ↔ 1 ≤ (v.num : ℚ) / v.den := by
  have hd : (0 : ℚ) < v.den := by exact_mod_cast h
  rw [Ratio.atLeastOne, decide_eq_true_eq, one_le_div hd]
  exact_mod_cast Iff.rfl

/-- A positive number lies between the powers of two around its length. -/
theorem log2_bounds {n : Nat} (h : 0 < n) : (2 : ℚ) ^ (Nat.log2 n : Int) ≤ n ∧ (n : ℚ) < 2 ^ ((Nat.log2 n : Int) + 1) := by
  have h1 := Nat.log2_self_le (Nat.pos_iff_ne_zero.mp h)
  have h2 := Nat.lt_log2_self (n := n)
  constructor
  · rw [zpow_natCast]; exact_mod_cast h1
  · rw [show ((Nat.log2 n : Int) + 1) = ((Nat.log2 n + 1 : Nat) : Int) by push_cast; rfl, zpow_natCast]
    exact_mod_cast h2

/-- `floorLog2` is `floor(log2(v))` of a positive magnitude. -/
theorem Ratio.floorLog2_spec (v : Ratio) (hn : 0 < v.num) (hd : 0 < v.den) :
    (2 : ℚ) ^ v.floorLog2 ≤ (v.num : ℚ) / v.den ∧ (v.num : ℚ) / v.den < (2 : ℚ) ^ (v.floorLog2 + 1) := by
  obtain ⟨n1, n2⟩ := log2_bounds hn
  obtain ⟨d1, d2⟩ := log2_bounds hd
  have hdq : (0 : ℚ) < v.den := by exact_mod_cast hd
  have two : (2 : ℚ) ≠ 0 := two_ne_zero
  unfold Ratio.floorLog2
  simp only
  generalize hk : (Nat.log2 v.num : Int) - (Nat.log2 v.den : Int) = k
  have hval := v.scale_value (-k)
  have hpos : (0 : ℚ) < 2 ^ k := zpow_pos two_pos k
  split_ifs with h
  · rw [Ratio.atLeastOne_iff _ (v.scale_den_pos _ hd), hval, zpow_neg, ← div_eq_mul_inv, one_le_div hpos] at h
    refine ⟨h, ?_⟩
    rw [div_lt_iff₀ hdq]
    refine lt_of_lt_of_le n2 ?_
    calc (2 : ℚ) ^ ((Nat.log2 v.num : Int) + 1) = 2 ^ (k + 1) * 2 ^ (Nat.log2 v.den : Int) := by
          rw [← zpow_add₀ two]; congr 1; omega
      _ ≤ 2 ^ (k + 1) * v.den := by gcongr
  · rw [Ratio.atLeastOne_iff _ (v.scale_den_pos _ hd), hval, zpow_neg, ← div_eq_mul_inv, one_le_div hpos, not_le] at h
    refine ⟨?_, by rw [sub_add_cancel]; exact h⟩
    rw [le_div_iff₀ hdq]
    refine le_trans ?_ n1
    calc (2 : ℚ) ^ (k - 1) * v.den ≤ 2 ^ (k - 1) * 2 ^ ((Nat.log2 v.den : Int) + 1) := by gcongr
      _ = 2 ^ (Nat.log2 v.num : Int) := by rw [← zpow_add₀ two]; congr 1; omega

/-- `val(x)` of a finite pattern, and 0 otherwise, in the machine's units. -/
theorem val_eq_units (x : B32) : val x = (units x : ℚ) * (2 : ℚ) ^ (-149 : ℤ) := by
  have hs : ∀ n : Nat, ((if sgn x then -(n : Int) else (n : Int) : Int) : ℚ) = signFactor (sgn x) * n := by
    intro n; unfold signFactor; split_ifs <;> simp
  rw [units, hs]
  unfold val unitsAbs classify
  by_cases he : expf x = 0#8
  · by_cases hf : frac x = 0#23 <;> simp [he, hf]
  · by_cases hi : expf x = 0xFF#8
    · by_cases hf : frac x = 0#23 <;> simp [hi, hf]
    · have h1 : 1 ≤ (expf x).toNat := by
        rcases Nat.eq_zero_or_pos (expf x).toNat with h | h
        · exact absurd (BitVec.eq_of_toNat_eq (by simpa using h)) he
        · exact h
      simp only [he, hi, if_false, Nat.shiftLeft_eq]
      push_cast
      rw [← zpow_natCast (2 : ℚ) ((expf x).toNat - 1), mul_assoc, mul_assoc, mul_assoc, ← zpow_add₀ (two_ne_zero)]
      congr 3
      omega

/-- The magnitude of a pattern's units. -/
theorem natAbs_units (x : B32) : (units x).natAbs = unitsAbs x := by
  unfold units
  split_ifs <;> simp

/-- A nonzero finite pattern counts at least one unit. -/
theorem unitsAbs_pos (x : B32) (hf : isFinite x = true) (hz : isZero x = false) : 0 < unitsAbs x := by
  rcases hc : classify x with s | ⟨s, f⟩ | ⟨s, e, f⟩ | s | ⟨s, q, p⟩
  · simp [isZero, hc] at hz
  · have hne : f ≠ 0#23 := by
      unfold classify at hc
      split_ifs at hc with h1 h2
      simp only [FloatClass.subnormal.injEq] at hc
      exact hc.2 ▸ h2
    simp only [unitsAbs, hc]
    exact Nat.pos_of_ne_zero fun h => hne (BitVec.eq_of_toNat_eq (by simpa using h))
  · simp only [unitsAbs, hc, Nat.shiftLeft_eq]
    positivity
  · simp [isFinite, isInf, hc] at hf
  · simp [isFinite, isNaN, hc] at hf

/-- The machine's truncation is that of the exact value. -/
theorem truncToInt_eq (x : B32) : truncToInt x = truncExact (val x) := by
  have key : ∀ u : Int, u.tdiv (2 ^ 149) = truncExact ((u : ℚ) * (2 : ℚ) ^ (-149 : ℤ)) := by
    intro u
    have hp : (0 : ℚ) < (2 : ℚ) ^ (-149 : ℤ) := zpow_pos two_pos _
    have hd : (u : ℚ) * (2 : ℚ) ^ (-149 : ℤ) = (u : ℚ) / ((2 ^ 149 : Nat) : ℚ) := by
      rw [zpow_neg, ← div_eq_mul_inv]; norm_num
    rw [show (2 ^ 149 : Int) = ((2 ^ 149 : Nat) : Int) by norm_num]
    unfold truncExact
    rw [hd]
    generalize hN : (2 ^ 149 : Nat) = N
    have hNpos : 0 < N := by rw [← hN]; positivity
    have hNq : (0 : ℚ) < (N : ℚ) := by exact_mod_cast hNpos
    split_ifs with h
    · have hu : 0 ≤ u := by
        by_contra hc
        have : (u : ℚ) < 0 := by exact_mod_cast (not_le.mp hc)
        exact absurd h (not_le.mpr (div_neg_of_neg_of_pos this hNq))
      rw [Int.tdiv_eq_ediv_of_nonneg hu, Rat.floor_intCast_div_natCast]
    · have hu : u < 0 := by
        by_contra hc
        exact h (div_nonneg (by exact_mod_cast (not_lt.mp hc)) hNq.le)
      have e1 : u = -(-u) := by omega
      have e2 : ((u : ℚ) / N) = -(((-u : Int) : ℚ) / N) := by push_cast; ring
      rw [e2, Int.ceil_neg, Rat.floor_intCast_div_natCast]
      conv_lhs => rw [e1, Int.neg_tdiv]
      rw [Int.tdiv_eq_ediv_of_nonneg (by omega)]
  rw [truncToInt, key, val_eq_units]

end Sys2Proof.Machine
end

