-- ==== Sys2Proof/Laws/PerInstr.lean ====
section
/-! SUPPORT. Statements about every operation as syntax, one lemma per constructor. TableRow: the command of a well-formed
operation is selected by the row of its mnemonic (30_encoding.md R64). ReservedFields: a command keeps the reserved
bits zero and carries the fraction width in its place (R60). -/

namespace Sys2Proof.Laws.TableRow

def Statement (i : Instr) : Prop :=
  WellFormed i = true → ∃ row ∈ opcodeRows, row.mnemonic = i.mnemonic ∧ row.selects (encode i) = true

theorem divu8 : Statement .divu8 :=
  fun _ => ⟨⟨"DIVU8", 0x0000#16, 0xFFFF#16⟩, by decide, rfl, by decide⟩

theorem divu16 : Statement .divu16 :=
  fun _ => ⟨⟨"DIVU16", 0x0010#16, 0xFFFF#16⟩, by decide, rfl, by decide⟩

theorem divu32 : Statement .divu32 :=
  fun _ => ⟨⟨"DIVU32", 0x0020#16, 0xFFFF#16⟩, by decide, rfl, by decide⟩

theorem divu64 : Statement .divu64 :=
  fun _ => ⟨⟨"DIVU64", 0x0030#16, 0xFFFF#16⟩, by decide, rfl, by decide⟩

theorem divs8 : Statement .divs8 :=
  fun _ => ⟨⟨"DIVS8", 0x0040#16, 0xFFFF#16⟩, by decide, rfl, by decide⟩

theorem divs16 : Statement .divs16 :=
  fun _ => ⟨⟨"DIVS16", 0x0050#16, 0xFFFF#16⟩, by decide, rfl, by decide⟩

theorem divs32 : Statement .divs32 :=
  fun _ => ⟨⟨"DIVS32", 0x0060#16, 0xFFFF#16⟩, by decide, rfl, by decide⟩

theorem divs64 : Statement .divs64 :=
  fun _ => ⟨⟨"DIVS64", 0x0070#16, 0xFFFF#16⟩, by decide, rfl, by decide⟩

theorem mul8 : Statement .mul8 :=
  fun _ => ⟨⟨"MUL8", 0x0041#16, 0xFFFF#16⟩, by decide, rfl, by decide⟩

theorem mul16 : Statement .mul16 :=
  fun _ => ⟨⟨"MUL16", 0x0051#16, 0xFFFF#16⟩, by decide, rfl, by decide⟩

theorem mul32 : Statement .mul32 :=
  fun _ => ⟨⟨"MUL32", 0x0061#16, 0xFFFF#16⟩, by decide, rfl, by decide⟩

theorem mull8 : Statement .mull8 :=
  fun _ => ⟨⟨"MULL8", 0x0042#16, 0xFFFF#16⟩, by decide, rfl, by decide⟩

theorem mull16 : Statement .mull16 :=
  fun _ => ⟨⟨"MULL16", 0x0052#16, 0xFFFF#16⟩, by decide, rfl, by decide⟩

theorem mull32 : Statement .mull32 :=
  fun _ => ⟨⟨"MULL32", 0x0062#16, 0xFFFF#16⟩, by decide, rfl, by decide⟩

theorem mulh8 : Statement .mulh8 :=
  fun _ => ⟨⟨"MULH8", 0x0043#16, 0xFFFF#16⟩, by decide, rfl, by decide⟩

theorem mulh16 : Statement .mulh16 :=
  fun _ => ⟨⟨"MULH16", 0x0053#16, 0xFFFF#16⟩, by decide, rfl, by decide⟩

theorem mulh32 : Statement .mulh32 :=
  fun _ => ⟨⟨"MULH32", 0x0063#16, 0xFFFF#16⟩, by decide, rfl, by decide⟩

theorem mulq8 (f : BitVec 6) : Statement (.mulq8 f) := by
  refine fun h => ⟨⟨"MULQ8", 0x0044#16, 0xF0FF#16⟩, by decide, rfl, ?_⟩
  revert f
  decide

theorem mulq16 (f : BitVec 6) : Statement (.mulq16 f) := by
  refine fun h => ⟨⟨"MULQ16", 0x0054#16, 0xE0FF#16⟩, by decide, rfl, ?_⟩
  revert f
  decide

theorem mulq32 (f : BitVec 6) : Statement (.mulq32 f) := by
  refine fun h => ⟨⟨"MULQ32", 0x0064#16, 0xC0FF#16⟩, by decide, rfl, ?_⟩
  revert f
  decide

theorem fadd : Statement .fadd :=
  fun _ => ⟨⟨"FADD", 0x0028#16, 0xFFFF#16⟩, by decide, rfl, by decide⟩

theorem fsub : Statement .fsub :=
  fun _ => ⟨⟨"FSUB", 0x0029#16, 0xFFFF#16⟩, by decide, rfl, by decide⟩

theorem fmul : Statement .fmul :=
  fun _ => ⟨⟨"FMUL", 0x002A#16, 0xFFFF#16⟩, by decide, rfl, by decide⟩

theorem fdiv : Statement .fdiv :=
  fun _ => ⟨⟨"FDIV", 0x002B#16, 0xFFFF#16⟩, by decide, rfl, by decide⟩

theorem fneg : Statement .fneg :=
  fun _ => ⟨⟨"FNEG", 0x002C#16, 0xFFFF#16⟩, by decide, rfl, by decide⟩

theorem fcmp : Statement .fcmp :=
  fun _ => ⟨⟨"FCMP", 0x002D#16, 0xFFFF#16⟩, by decide, rfl, by decide⟩

theorem itofU32 : Statement .itofU32 :=
  fun _ => ⟨⟨"ITOF.U32", 0x002E#16, 0xFFFF#16⟩, by decide, rfl, by decide⟩

theorem itofS32 : Statement .itofS32 :=
  fun _ => ⟨⟨"ITOF.S32", 0x006E#16, 0xFFFF#16⟩, by decide, rfl, by decide⟩

theorem ftoiU32 : Statement .ftoiU32 :=
  fun _ => ⟨⟨"FTOI.U32", 0x002F#16, 0xFFFF#16⟩, by decide, rfl, by decide⟩

theorem ftoiS32 : Statement .ftoiS32 :=
  fun _ => ⟨⟨"FTOI.S32", 0x006F#16, 0xFFFF#16⟩, by decide, rfl, by decide⟩

end Sys2Proof.Laws.TableRow

namespace Sys2Proof.Laws.ReservedFields

def Statement (i : Instr) : Prop :=
  cmdRsv0 (encode i) = false ∧ cmdRsv1 (encode i) = 0#2 ∧ cmdF (encode i) = i.fraction

theorem divu8 : Statement .divu8 := by
  unfold Statement
  decide

theorem divu16 : Statement .divu16 := by
  unfold Statement
  decide

theorem divu32 : Statement .divu32 := by
  unfold Statement
  decide

theorem divu64 : Statement .divu64 := by
  unfold Statement
  decide

theorem divs8 : Statement .divs8 := by
  unfold Statement
  decide

theorem divs16 : Statement .divs16 := by
  unfold Statement
  decide

theorem divs32 : Statement .divs32 := by
  unfold Statement
  decide

theorem divs64 : Statement .divs64 := by
  unfold Statement
  decide

theorem mul8 : Statement .mul8 := by
  unfold Statement
  decide

theorem mul16 : Statement .mul16 := by
  unfold Statement
  decide

theorem mul32 : Statement .mul32 := by
  unfold Statement
  decide

theorem mull8 : Statement .mull8 := by
  unfold Statement
  decide

theorem mull16 : Statement .mull16 := by
  unfold Statement
  decide

theorem mull32 : Statement .mull32 := by
  unfold Statement
  decide

theorem mulh8 : Statement .mulh8 := by
  unfold Statement
  decide

theorem mulh16 : Statement .mulh16 := by
  unfold Statement
  decide

theorem mulh32 : Statement .mulh32 := by
  unfold Statement
  decide

theorem mulq8 (f : BitVec 6) : Statement (.mulq8 f) := by
  revert f
  unfold Statement
  decide

theorem mulq16 (f : BitVec 6) : Statement (.mulq16 f) := by
  revert f
  unfold Statement
  decide

theorem mulq32 (f : BitVec 6) : Statement (.mulq32 f) := by
  revert f
  unfold Statement
  decide

theorem fadd : Statement .fadd := by
  unfold Statement
  decide

theorem fsub : Statement .fsub := by
  unfold Statement
  decide

theorem fmul : Statement .fmul := by
  unfold Statement
  decide

theorem fdiv : Statement .fdiv := by
  unfold Statement
  decide

theorem fneg : Statement .fneg := by
  unfold Statement
  decide

theorem fcmp : Statement .fcmp := by
  unfold Statement
  decide

theorem itofU32 : Statement .itofU32 := by
  unfold Statement
  decide

theorem itofS32 : Statement .itofS32 := by
  unfold Statement
  decide

theorem ftoiU32 : Statement .ftoiU32 := by
  unfold Statement
  decide

theorem ftoiS32 : Statement .ftoiS32 := by
  unfold Statement
  decide

end Sys2Proof.Laws.ReservedFields
end

