-- ==== Sys2Proof/Tests/Slice0.lean ====
section
/-! SUPPORT. The package's own tests: the well-formedness smoke tests, one command per constructor written out from
30_encoding.md R60 and R64, worked examples of the rules and of 95_test_vectors.md, and a witness for the hypotheses
of every statement that has some. Every expected value is the spec's. -/

open Sys2Proof Sys2Proof.Machine

namespace Sys2Proof.Tests

/-! ## Well-formedness: an ill-formed term for each check, just above its bound -/

theorem test_mulq8_fraction_16_ill_formed : WellFormed (.mulq8 16#6) = false := by decide
theorem test_mulq16_fraction_32_ill_formed : WellFormed (.mulq16 32#6) = false := by decide
theorem test_largest_fractions_well_formed :
    WellFormed (.mulq8 15#6) = true ∧ WellFormed (.mulq16 31#6) = true ∧ WellFormed (.mulq32 63#6) = true := by decide

/-! ## Decoding: rsv1 f rsv0 sg wc func, from R60 and R63 -/

theorem test_decode_divides :
    decode 0b00_000000_0_0_00_0000#16 = .ok .divu8 ∧ decode 0b00_000000_0_0_01_0000#16 = .ok .divu16 ∧
    decode 0b00_000000_0_0_10_0000#16 = .ok .divu32 ∧ decode 0b00_000000_0_0_11_0000#16 = .ok .divu64 ∧
    decode 0b00_000000_0_1_00_0000#16 = .ok .divs8 ∧ decode 0b00_000000_0_1_01_0000#16 = .ok .divs16 ∧
    decode 0b00_000000_0_1_10_0000#16 = .ok .divs32 ∧ decode 0b00_000000_0_1_11_0000#16 = .ok .divs64 := by decide

theorem test_decode_multiplies :
    decode 0b00_000000_0_1_00_0001#16 = .ok .mul8 ∧ decode 0b00_000000_0_1_01_0001#16 = .ok .mul16 ∧
    decode 0b00_000000_0_1_10_0001#16 = .ok .mul32 ∧ decode 0b00_000000_0_1_00_0010#16 = .ok .mull8 ∧
    decode 0b00_000000_0_1_01_0010#16 = .ok .mull16 ∧ decode 0b00_000000_0_1_10_0010#16 = .ok .mull32 ∧
    decode 0b00_000000_0_1_00_0011#16 = .ok .mulh8 ∧ decode 0b00_000000_0_1_01_0011#16 = .ok .mulh16 ∧
    decode 0b00_000000_0_1_10_0011#16 = .ok .mulh32 := by decide

theorem test_decode_shifted_multiplies :
    decode 0b00_001111_0_1_00_0100#16 = .ok (.mulq8 15#6) ∧ decode 0b00_011111_0_1_01_0100#16 = .ok (.mulq16 31#6) ∧
    decode 0b00_111111_0_1_10_0100#16 = .ok (.mulq32 63#6) := by decide

theorem test_decode_floats :
    decode 0b00_000000_0_0_10_1000#16 = .ok .fadd ∧ decode 0b00_000000_0_0_10_1001#16 = .ok .fsub ∧
    decode 0b00_000000_0_0_10_1010#16 = .ok .fmul ∧ decode 0b00_000000_0_0_10_1011#16 = .ok .fdiv ∧
    decode 0b00_000000_0_0_10_1100#16 = .ok .fneg ∧ decode 0b00_000000_0_0_10_1101#16 = .ok .fcmp := by decide

theorem test_decode_conversions :
    decode 0b00_000000_0_0_10_1110#16 = .ok .itofU32 ∧ decode 0b00_000000_0_1_10_1110#16 = .ok .itofS32 ∧
    decode 0b00_000000_0_0_10_1111#16 = .ok .ftoiU32 ∧ decode 0b00_000000_0_1_10_1111#16 = .ok .ftoiS32 := by decide

/-- The illegal commands of 95_test_vectors.md, with the reason the table gives. -/
theorem test_illegal_commands :
    decode 0x0001#16 = .error .signedness ∧ decode 0x0071#16 = .error .width ∧
    decode 0x0005#16 = .error .reservedFunction ∧ decode 0x0006#16 = .error .reservedFunction ∧
    decode 0x0007#16 = .error .reservedFunction ∧ decode 0x0080#16 = .error .reservedBits ∧
    decode 0x4000#16 = .error .reservedBits ∧ decode 0x0100#16 = .error .fraction ∧
    decode 0x0830#16 = .error .fraction ∧ decode 0x1044#16 = .error .fraction ∧ decode 0x2054#16 = .error .fraction ∧
    decode 0x0024#16 = .error .signedness ∧ decode 0x0068#16 = .error .signedness ∧
    decode 0x0038#16 = .error .width ∧ decode 0x003E#16 = .error .width ∧ decode 0x0011#16 = .error .signedness := by
  decide

theorem test_table_word_of_the_q7_8_multiply : decodeTableWord 16 0x0854 = some (.mulq16 8#6) := by decide

/-! ## One step on a small state -/

/-- The state in which a request stands. -/
def requestOf (cmd : Cmd) (a b : Port) : State := State.reset.present { cmd := cmd, a := a, b := b }

/-- The results of one step, where it is a response. -/
def results (cmd : Cmd) (a b : Port) : Option (Port × Port) :=
  match step (requestOf cmd a b) with
  | .next t => t.response.map fun r => (r.res0, r.res1)
  | .fault _ => none
  | .refused _ => none

/- R106 to R109 -/
theorem test_divu8 : results 0x0000#16 0xC8#64 0x07#64 = some (0x1C#64, 0x04#64) := by decide +kernel
theorem test_divu8_ignores_upper_bits : results 0x0000#16 0xAB05#64 0xCD09#64 = some (0x00#64, 0x05#64) := by decide +kernel
theorem test_divu16 : results 0x0010#16 0x8001#64 0x0003#64 = some (0x2AAB#64, 0#64) := by decide +kernel
theorem test_divu32 : results 0x0020#16 0xFFFFFFFF#64 2#64 = some (0x7FFFFFFF#64, 1#64) := by decide +kernel
theorem test_divu64 :
    results 0x0030#16 0xFFFFFFFFFFFFFFFF#64 0xA#64 = some (0x1999999999999999#64, 5#64) := by decide +kernel
theorem test_divu64_by_zero : results 0x0030#16 0x123456789ABCDEF0#64 0#64 = some (0#64, 0#64) := by decide +kernel
/- R112 to R115 -/
theorem test_divs8 : results 0x0040#16 0x9C#64 0x07#64 = some (0xF2#64, 0xFE#64) := by decide +kernel
theorem test_divs8_min_by_minus_one : results 0x0040#16 0x80#64 0xFF#64 = some (0x80#64, 0#64) := by decide +kernel
theorem test_divs16 : results 0x0050#16 0xFF9C#64 0xFFF9#64 = some (0x000E#64, 0xFFFE#64) := by decide +kernel
theorem test_divs32 : results 0x0060#16 0x64#64 0xFFFFFFF9#64 = some (0xFFFFFFF2#64, 2#64) := by decide +kernel
theorem test_divs64 :
    results 0x0070#16 0xFFFFFFFFFFFFFFFA#64 3#64 = some (0xFFFFFFFFFFFFFFFE#64, 0#64) := by decide +kernel
/- R133 to R135 -/
theorem test_mul8 : results 0x0041#16 0x80#64 0x01#64 = some (0xFF80#64, 0#64) := by decide +kernel
theorem test_mul16 : results 0x0051#16 0x03E8#64 0xFE0C#64 = some (0xFFF85EE0#64, 0#64) := by decide +kernel
theorem test_mul32 : results 0x0061#16 0x80000000#64 0xFFFFFFFF#64 = some (0x80000000#64, 0#64) := by decide +kernel
/- R136 to R138 -/
theorem test_mull8 : results 0x0042#16 0xE8#64 0x0C#64 = some (0xE0#64, 0#64) := by decide +kernel
theorem test_mull16 : results 0x0052#16 0x8000#64 0xFFFF#64 = some (0x8000#64, 0#64) := by decide +kernel
theorem test_mull32 : results 0x0062#16 0x3E8#64 0xFFFFFE0C#64 = some (0xFFF85EE0#64, 0#64) := by decide +kernel
/- R139 to R141 -/
theorem test_mulh8 : results 0x0043#16 0x03#64 0xFC#64 = some (0xFF#64, 0#64) := by decide +kernel
theorem test_mulh16 : results 0x0053#16 0x7FFF#64 0x7FFF#64 = some (0x3FFF#64, 0#64) := by decide +kernel
theorem test_mulh32 : results 0x0063#16 0x80000000#64 1#64 = some (0xFFFFFFFF#64, 0#64) := by decide +kernel
/- R143 to R145 -/
theorem test_mulq8 : results 0x0444#16 0xE8#64 0x28#64 = some (0xC4#64, 0#64) := by decide +kernel
theorem test_mulq16_rounds_down : results 0x0854#16 0xFFFF#64 0x0080#64 = some (0xFFFF#64, 0#64) := by decide +kernel
theorem test_mulq32_last_fraction :
    results 0x3F64#16 0x80000000#64 0x7FFFFFFF#64 = some (0xFFFFFFFF#64, 0#64) := by decide +kernel
/- R190, R193, R196, R200: results in the normal range, the same under both settings of UNDERFLOW -/
theorem test_fadd : results 0x0028#16 0x3F800000#64 0x40000000#64 = some (0x40400000#64, 0#64) := by decide
theorem test_fadd_tie_from_odd : results 0x0028#16 0x3F800001#64 0x33800000#64 = some (0x3F800002#64, 0#64) := by decide
theorem test_fsub : results 0x0029#16 0x3FC00000#64 0x3FC00001#64 = some (0xB4000000#64, 0#64) := by decide
theorem test_fmul : results 0x002A#16 0x3FFFFFFF#64 0x3FFFFFFF#64 = some (0x407FFFFE#64, 0#64) := by decide
/- R193, R196, R200, R205: results that depend on the parameters -/
theorem test_fadd_underflow :
    floatAdd .flushToZero 0#32 0x00800000#32 0x80000001#32 = 0x00000000#32 ∧
    floatAdd .gradual 0#32 0x00800000#32 0x80000001#32 = 0x007FFFFF#32 := by decide
theorem test_fsub_underflow :
    floatSub .flushToZero 0#32 0x00800000#32 0x00800001#32 = 0x80000000#32 ∧
    floatSub .gradual 0#32 0x00800000#32 0x00800001#32 = 0x80000001#32 := by decide
theorem test_fmul_underflow_boundary :
    floatMul .flushToZero 0#32 0x00800000#32 0x3F7FFFFF#32 = 0x00000000#32 ∧
    floatMul .gradual 0#32 0x00800000#32 0x3F7FFFFF#32 = 0x00800000#32 := by decide
theorem test_fdiv_two_thirds :
    floatDiv .flushToZero .nearestEven 0#32 0x40000000#32 0x40400000#32 = 0x3F2AAAAB#32 ∧
    floatDiv .flushToZero .towardZero 0#32 0x40000000#32 0x40400000#32 = 0x3F2AAAAA#32 := by decide
theorem test_fdiv_overflow_in_rtz :
    floatDiv .flushToZero .towardZero 0#32 0x7F7FFFFF#32 0x3F000000#32 = 0x7F800000#32 := by decide
/- R207, R210 -/
theorem test_fneg_keeps_a_signalling_nan : results 0x002C#16 0x7F800001#64 0#64 = some (0xFF800001#64, 0#64) := by
  decide
theorem test_fcmp_less : results 0x002D#16 0x80000001#64 0#64 = some (0xFFFFFFFF#64, 0#64) := by decide
theorem test_fcmp_zeros_equal : results 0x002D#16 0#64 0x80000000#64 = some (0#64, 0#64) := by decide
/- R231, R232 -/
theorem test_itofU32_tie : results 0x002E#16 0xFFFFFF80#64 0#64 = some (0x4F800000#64, 0#64) := by decide
theorem test_itofS32 : results 0x006E#16 0xFFFFFF7F#64 0#64 = some (0xC3010000#64, 0#64) := by decide
/- R235, R236 -/
theorem test_ftoiU32_above_minus_one : results 0x002F#16 0xBF7FFFFF#64 0#64 = some (0#64, 0#64) := by decide
theorem test_ftoiS32_minimum : results 0x006F#16 0xCF000000#64 0#64 = some (0x80000000#64, 0#64) := by decide
theorem test_ftoi_out_of_range :
    floatToInt 77#32 (-2 ^ 31) (2 ^ 31 - 1) 0xCF000001#32 = 77#32 ∧
    floatToInt 77#32 0 (2 ^ 32 - 1) 0xBF800000#32 = 77#32 := by decide

theorem test_asm_line : asmLine (.mulq16 8#6) "p" "_" "a" "b" = "MULQ16 #8, p <- a, b" := by decide

/-- 42_float_common.md's normaliser vectors in 95_test_vectors.md. -/
theorem test_normalise :
    normalise 0x00000001#32 = some (0x800000, -149) ∧ normalise 0x807FFFFF#32 = some (0xFFFFFE, -127) ∧
    normalise 0x7F7FFFFF#32 = some (0xFFFFFF, 127) := by decide

/-- R203's steps on 1/3 in both modes. -/
theorem test_long_division_one_third :
    divPath .flushToZero .nearestEven false (2 ^ 23, 0) (3 * 2 ^ 22, 1) = 0x3EAAAAAB#32 ∧
    divPath .flushToZero .towardZero false (2 ^ 23, 0) (3 * 2 ^ 22, 1) = 0x3EAAAAAA#32 := by decide

/-! ## Witnesses: for each statement with hypotheses, an input that meets them -/

theorem witness_DecodeOfEncode : WellFormed (.mulq8 15#6) = true := by decide

theorem witness_EncodeOfDecode : decode 0x3F64#16 = .ok (.mulq32 63#6) := by decide

theorem witness_DecodeFollowsOpcodeMap :
    decode 0x0F44#16 = .ok (.mulq8 15#6) ∧
    (⟨"MULQ8", 0x0044#16, 0xF0FF#16⟩ : OpcodeRow) ∈ opcodeRows ∧ 0x0F44#16 &&& 0xF0FF#16 = 0x0044#16 := by decide

theorem witness_ReservedSpaceExactly : State.reset.resetAsserted = false ∧ isLegal 0x1044#16 = false := by decide

theorem witness_StepRunsTheDecodedOperation :
    (requestOf 0x0854#16 1#64 2#64).resetAsserted = false ∧ (requestOf 0x0854#16 1#64 2#64).requested = true ∧
    decode (requestOf 0x0854#16 1#64 2#64).cmd = .ok (.mulq16 8#6) := by decide

theorem witness_StepWaitsWithoutRequest :
    State.reset.resetAsserted = false ∧ State.reset.requested = false := by decide

theorem witness_IllegalCommandFaultsAndIsAnswered :
    State.reset.resetAsserted = false ∧ isLegal 0x0001#16 = false := by decide

theorem witness_OperandBitsReadAndResultBitsDriven :
    Responds .fneg (requestOf 0x002C#16 0#64 0#64) 0x80000000#64 0#64 ∧
    lowBits Instr.fneg.width (requestOf 0x002C#16 0xFFFFFFFF00000000#64 5#64).a =
      lowBits Instr.fneg.width (requestOf 0x002C#16 0#64 0#64).a ∧
    (Instr.fneg.readsB = true →
      lowBits Instr.fneg.width (requestOf 0x002C#16 0xFFFFFFFF00000000#64 5#64).b =
        lowBits Instr.fneg.width (requestOf 0x002C#16 0#64 0#64).b) :=
  ⟨rfl, by decide, by decide⟩

theorem witness_ResponsesIndependentOfEarlierOperations : (requestOf 0x0001#16 3#64 4#64).resetAsserted = false := by
  decide

theorem witness_LegalResponsesDrawNothing :
    State.reset.resetAsserted = false ∧ (requestOf 0x0030#16 3#64 4#64).resetAsserted = false ∧
    isLegal 0x002B#16 = true := by decide

theorem witness_StepKeepsPortsInAgreement :
    PortsAgree (requestOf 0x002C#16 0#64 0#64) ∧
    step (requestOf 0x002C#16 0#64 0#64) = .next ((requestOf 0x002C#16 0#64 0#64).respond 0x80000000#64 0#64) :=
  ⟨fun _ h _ => absurd h (by decide), rfl⟩

theorem witness_ReadyAfterReset : decode 0x002F#16 = .ok .ftoiU32 := by decide

/-- Reset asserted while the unit is idle, while a response stands, and while a request does. -/
theorem witness_ResetAbandonsTheRequest :
    State.reset.assertReset.resetAsserted = true ∧
    (State.reset.respond 1#64 2#64).assertReset.resetAsserted = true ∧
    (requestOf 0x0030#16 3#64 4#64).assertReset.resetAsserted = true ∧
    (requestOf 0x0030#16 3#64 4#64).resetAsserted = false := by decide

theorem witness_EngineDividesExactly : 1#64 ≠ 0#64 := by decide

theorem witness_DivisionByZeroGivesZeros :
    Instr.divs8 ∈ [Instr.divu8, .divu16, .divu32, .divu64, .divs8, .divs16, .divs32, .divs64] ∧
    lowBits Instr.divs8.width (requestOf 0x0040#16 0x9C#64 0x100#64).b = 0#Instr.divs8.width := by decide

theorem witness_UnsignedDivides : Instr.divu64 ∈ [Instr.divu8, .divu16, .divu32, .divu64] := by decide

theorem witness_SignedDivides : Instr.divs64 ∈ [Instr.divs8, .divs16, .divs32, .divs64] := by decide

theorem witness_SignedDivideLaws : 8 ∈ [8, 16, 32, 64] ∧ BitVec.intMin 8 ≠ 0#8 := by decide

theorem witness_NarrowDividesMatchTheirOwnWidth : (32 ≤ 32 ∨ 32 = 64) ∧ (64 ≤ 32 ∨ 64 = 64) := by decide

theorem witness_LowProducts : Instr.mull32 ∈ [Instr.mull8, .mull16, .mull32] := by decide

/-- A negative product of magnitude exactly 2^W: −128 × 2. -/
theorem witness_HighProducts :
    Instr.mulh8 ∈ [Instr.mulh8, .mulh16, .mulh32] ∧
    (lowBits Instr.mulh8.width 0x80#64).toInt * (lowBits Instr.mulh8.width 0x02#64).toInt < 0 ∧
    -(2 ^ Instr.mulh8.width : Int) ≤
      (lowBits Instr.mulh8.width 0x80#64).toInt * (lowBits Instr.mulh8.width 0x02#64).toInt := by decide

theorem witness_ShiftedProducts :
    (15#6).toNat < 16 ∧ (31#6).toNat < 32 ∧
    Instr.mulq32 63#6 ∈ [Instr.mulq8 63#6, .mulq16 63#6, .mulq32 63#6] := by decide

theorem witness_HalvesOfTheFullProduct :
    (MultiplyWidth.w32, Instr.mul32, Instr.mulh32) ∈
      [(MultiplyWidth.w8, Instr.mul8, Instr.mulh8), (.w16, .mul16, .mulh16), (.w32, .mul32, .mulh32)] := by decide

/-- Each clause at a boundary of its range: ±0, the least subnormal, exponent fields 1 and 254, ∞ and a NaN. -/
theorem witness_ClassifierFollowsTheFields :
    (expf 0x80000000#32 = 0#8 ∧ frac 0x80000000#32 = 0#23) ∧ (expf 0x00000001#32 = 0#8 ∧ frac 0x00000001#32 ≠ 0#23) ∧
    ((expf 0x00800000#32).toNat = 1 ∧ (expf 0x7F7FFFFF#32).toNat = 254) ∧
    (expf 0x7F800000#32 = 0xFF#8 ∧ frac 0x7F800000#32 = 0#23) ∧
    (expf 0x7F800001#32 = 0xFF#8 ∧ frac 0x7F800001#32 ≠ 0#23) := by decide

theorem witness_NormaliseKeepsTheValue : normalise 0x00000001#32 = some (0x800000, -149) := by decide

/-- 5/8 is 2.5 quarters: two whole quarters, with a remainder in the sticky bit. -/
theorem witness_RoundingFollowsTheRule :
    0 < (Ratio.mk 1 3).den ∧ (0 : ℚ) ≤ 5 / 8 ∧ (({ bits := 2, sticky := true } : Acc).bits : ℤ) = ⌊4 * (5 / 8 : ℚ)⌋ ∧
    (({ bits := 2, sticky := true } : Acc).sticky = true ↔ (⌊4 * (5 / 8 : ℚ)⌋ : ℚ) ≠ 4 * (5 / 8)) := by
  have h : ⌊4 * (5 / 8 : ℚ)⌋ = 2 := by rw [Int.floor_eq_iff]; norm_num
  rw [h]
  norm_num

theorem witness_PackingFollowsTheRule : 0 < (Ratio.mk 1 3).num ∧ 0 < (Ratio.mk 1 3).den := by decide

theorem witness_GradualResultIsNearest :
    0 < (Ratio.mk 1 3).num ∧ 0 < (Ratio.mk 1 3).den ∧
    isFinite (roundPack .gradual .nearestEven true { num := 1, den := 3 }) = true ∧ isFinite 0x7F7FFFFF#32 = true := by
  decide

theorem witness_OverflowThresholds : 0 < (Ratio.mk (2 ^ 128) 1).num ∧ 0 < (Ratio.mk (2 ^ 128) 1).den := by decide

theorem witness_FlushDiffersOnlyBelowTheNormalRange :
    roundPack .flushToZero .nearestEven true { num := 1, den := 2 ^ 127 } ≠
      roundPack .gradual .nearestEven true { num := 1, den := 2 ^ 127 } := by decide

theorem witness_ArithmeticNaNResultsAreQuiet :
    Instr.fadd ∈ [Instr.fadd, .fsub, .fmul, .fdiv] ∧
    Responds .fadd (requestOf 0x0028#16 0x7F800001#64 0#64) (toPort (qnan 0x0028#16 0x7F800001#32 0#32)) 0#64 ∧
    isNaN (lowBits 32 (toPort (qnan 0x0028#16 0x7F800001#32 0#32))) = true :=
  ⟨by decide, rfl, by rw [lowBits_toPort _ (by decide)]; exact isNaN_qnan _ _ _⟩

/-- A signalling NaN on the right of an infinity. -/
theorem witness_NaNOperandDecidesFirst :
    Instr.fmul ∈ [Instr.fadd, .fsub, .fmul, .fdiv] ∧ isNaN (lowBits 32 0x7F800001#64) = true := by decide

theorem witness_OneThirdInBothModes :
    lowBits 32 (requestOf 0x002B#16 0x3F800000#64 0x40400000#64).a = 0x3F800000#32 ∧
    lowBits 32 (requestOf 0x002B#16 0x3F800000#64 0x40400000#64).b = 0x40400000#32 := by decide

/-- Each clause of the comparison at a boundary: a NaN, −∞ before the least finite value, the two zeros, and the
largest finite value before +∞. -/
theorem witness_CompareOrdersByValue :
    ¬Ordered 0x7F800001#32 0x7F800000#32 ∧ Ordered 0xFF800000#32 0xFF7FFFFF#32 ∧ Precedes 0xFF800000#32 0xFF7FFFFF#32 ∧
    Ordered 0x00000000#32 0x80000000#32 ∧ SameValue 0x00000000#32 0x80000000#32 ∧
    Ordered 0x7F800000#32 0x7F7FFFFF#32 ∧ Precedes 0x7F7FFFFF#32 0x7F800000#32 := by
  refine ⟨by unfold Ordered; decide, by unfold Ordered; decide, .inl (by decide), by unfold Ordered; decide,
    .inr ⟨by decide, by decide, ?_⟩, by unfold Ordered; decide, .inr (.inl (by decide))⟩
  rw [val, val, show classify 0x00000000#32 = .zero false by decide, show classify 0x80000000#32 = .zero true by decide]

theorem witness_PseudoOperationsMeanWhatTheyName :
    Relation.unord.Holds (lowBits 32 0x7FC00000#64) (lowBits 32 0#64) ∧
    ¬Relation.eq.Holds (lowBits 32 0x7FC00000#64) (lowBits 32 0#64) :=
  ⟨fun h => absurd h.1 (by decide), fun h => absurd h.1.1 (by decide)⟩

theorem witness_IntegerConversionIgnoresUnderflow : (2 ^ 31 : Nat) < 2 ^ 32 ∧ FitsSignificand (2 ^ 31) :=
  ⟨by decide, 1, 31, by decide, by decide⟩

theorem witness_RoundTripOfShortIntegers :
    FitsSignificand (0x80000000#32).toInt.natAbs ∧ FitsSignificand (0xFFFFFF00#32).toNat ∧
    lowBits 32 (requestOf 0x006E#16 0x80000000#64 0#64).a = 0x80000000#32 ∧ (2 ^ 24 : Nat) ≤ 2 ^ 24 :=
  ⟨⟨1, 31, by decide, by decide⟩, ⟨0xFFFFFF, 8, by decide, by decide⟩, by decide, by decide⟩

theorem witness_datapaths :
    normalise 0x00000001#32 = some (0x800000, -149) ∧ normalise 0xFF7FFFFF#32 = some (0xFFFFFF, 127) := by decide

theorem witness_IntegerShiftMeetsTheConversion : 0 < 0xFFFFFFFF ∧ 0xFFFFFFFF < 2 ^ 32 := by decide

end Sys2Proof.Tests
end

section
/-! PROOF. R31 by the types: each operation is written once as a pair of functions from the W-bit operands to results of
the driven widths, and `exec` completes with exactly these, zero-filled to their ports. What bits are read and what bits
are driven then follows for every operation at once. -/

namespace Sys2Proof

open Machine

/-- What an operation drives on the low bits of `res0`, as a function of its W-bit operands. -/
def Instr.result0 : (i : Instr) → BitVec i.width → BitVec i.width → BitVec i.res0Width
  | .divu8, a, b | .divu16, a, b | .divu32, a, b | .divu64, a, b => (divideUnsigned a b).1
  | .divs8, a, b | .divs16, a, b | .divs32, a, b | .divs64, a, b => (divideSigned a b).1
  | .mul8, a, b | .mul16, a, b | .mul32, a, b => product a b
  | .mull8, a, b | .mull16, a, b | .mull32, a, b => productLow a b
  | .mulh8, a, b | .mulh16, a, b | .mulh32, a, b => productHigh a b
  | .mulq8 f, a, b | .mulq16 f, a, b | .mulq32 f, a, b => productShifted f.toNat a b
  | .fadd, a, b => floatAdd Config.underflow (qnan (encode .fadd) a b) a b
  | .fsub, a, b => floatSub Config.underflow (qnan (encode .fsub) a b) a b
  | .fmul, a, b => floatMul Config.underflow (qnan (encode .fmul) a b) a b
  | .fdiv, a, b => floatDiv Config.underflow Config.fdivRound (qnan (encode .fdiv) a b) a b
  | .fneg, a, _ => floatNeg a
  | .fcmp, a, b => (floatCompare a b).code
  | .itofU32, a, _ => intToFloat Config.underflow false a.toNat
  | .itofS32, a, _ => intToFloat Config.underflow a.msb (magnitude a).toNat
  | .ftoiU32, a, _ => floatToInt (Config.ftoiOob (encode .ftoiU32) a) 0 (2 ^ 32 - 1) a
  | .ftoiS32, a, _ => floatToInt (Config.ftoiOob (encode .ftoiS32) a) (-2 ^ 31) (2 ^ 31 - 1) a

/-- What an operation drives on the low bits of `res1`: the remainder of a divide, no bit otherwise. -/
def Instr.result1 : (i : Instr) → BitVec i.width → BitVec i.width → BitVec i.res1Width
  | .divu8, a, b | .divu16, a, b | .divu32, a, b | .divu64, a, b => (divideUnsigned a b).2
  | .divs8, a, b | .divs16, a, b | .divs32, a, b | .divs64, a, b => (divideSigned a b).2
  | i, _, _ => 0#i.res1Width

theorem Instr.res0Width_le (i : Instr) : i.res0Width ≤ 64 := by cases i <;> simp [Instr.res0Width]

theorem Instr.res1Width_le (i : Instr) : i.res1Width ≤ 64 := by cases i <;> simp [Instr.res1Width]

/-- An operation that does not read `b` has the same `res0` whatever `b` is. -/
theorem Instr.result0_of_readsB_false : ∀ (i : Instr), i.readsB = false →
    ∀ a b b' : BitVec i.width, i.result0 a b = i.result0 a b'
  | .fneg, _ | .itofU32, _ | .itofS32, _ | .ftoiU32, _ | .ftoiS32, _ => fun _ _ _ => rfl

/-- An operation that does not read `b` has the same `res1` whatever `b` is. -/
theorem Instr.result1_of_readsB_false : ∀ (i : Instr), i.readsB = false →
    ∀ a b b' : BitVec i.width, i.result1 a b = i.result1 a b'
  | .fneg, _ | .itofU32, _ | .itofS32, _ | .ftoiU32, _ | .ftoiS32, _ => fun _ _ _ => rfl

namespace Machine

/-- Every operation completes with its two results on the operands at the port, zero-filled. -/
theorem exec_eq_respond_results : ∀ (i : Instr) (s : State),
    exec i s = .next (s.respond (toPort (i.result0 (lowBits i.width s.a) (lowBits i.width s.b)))
      (toPort (i.result1 (lowBits i.width s.a) (lowBits i.width s.b))))
  | .divu8, s | .divu16, s | .divu32, s | .divu64, s => completeDivu_spec _ s
  | .divs8, s | .divs16, s | .divs32, s | .divs64, s => completeDivs_spec _ s
  | .mul8, s | .mul16, s | .mul32, s => completeMul_spec _ s
  | .mull8, s | .mull16, s | .mull32, s => completeMull_spec _ s
  | .mulh8, s | .mulh16, s | .mulh32, s => completeMulh_spec _ s
  | .mulq8 f, s | .mulq16 f, s | .mulq32 f, s => completeMulq_spec _ f s
  | .fadd, s | .fsub, s | .fmul, s | .fdiv, s => completeFloat_spec _ _ s
  | .ftoiU32, s | .ftoiS32, s => completeFtoi_spec _ _ _ s
  | .fneg, s | .fcmp, s | .itofU32, s | .itofS32, s => complete_spec s _ _

/-- Completion determines the two results. -/
theorem responds_iff_results (i : Instr) (s : State) (r0 r1 : Port) :
    Responds i s r0 r1 ↔
      r0 = toPort (i.result0 (lowBits i.width s.a) (lowBits i.width s.b)) ∧
      r1 = toPort (i.result1 (lowBits i.width s.a) (lowBits i.width s.b)) := by
  rw [responds_iff, exec_eq_respond_results]
  simp [State.respond, eq_comm]

/-- A result put on a port has zeros above its own width. -/
theorem toPort_toNat_lt {W : Nat} (v : BitVec W) (h : W ≤ 64) : (toPort v).toNat < 2 ^ W :=
  (toPort_toNat v h).trans_lt v.isLt

/-- An operation whose listed operand bits agree at two states completes with the same results at both. -/
theorem responds_congr {i : Instr} {s t : State} {r0 r1 : Port} (ha : lowBits i.width t.a = lowBits i.width s.a)
    (hb : i.readsB = true → lowBits i.width t.b = lowBits i.width s.b) (h : Responds i s r0 r1) :
    Responds i t r0 r1 := by
  rw [responds_iff_results] at h ⊢
  rw [ha]
  cases hr : i.readsB with
  | true => rwa [hb hr]
  | false =>
    rwa [i.result0_of_readsB_false hr _ _ (lowBits i.width s.b), i.result1_of_readsB_false hr _ _ (lowBits i.width s.b)]

/-- Settles O12: the operands read are the arguments of `result0` and `result1`, the driven bits their widths. -/
theorem operandBitsReadAndResultBitsDriven : Obligations.OperandBitsReadAndResultBitsDriven := by
  intro i s r0 r1 h
  refine ⟨fun t ha hb => responds_congr ha hb h, ?_⟩
  obtain ⟨rfl, rfl⟩ := (responds_iff_results i s r0 r1).mp h
  exact ⟨toPort_toNat_lt _ i.res0Width_le, toPort_toNat_lt _ i.res1Width_le⟩

end Machine

end Sys2Proof
end

section
/-! PROOF. The decoder against the opcode map (30_encoding.md R64). From a command to its row: what decodes has a command
of its own, the accepted one, and `Laws.TableRow` gives that command a row. From a row to its commands: a mask fixes the
fields of the command it covers, and only the MULQ rows leave some of `f` uncovered. -/

namespace Sys2Proof

/-! ### A command is its fields -/

/-- One bit of a word is its slice of length 1. -/
theorem ofBool_getLsbD {w : Nat} (v : BitVec w) (k : Nat) : BitVec.ofBool (v.getLsbD k) = v.extractLsb' k 1 := by
  ext j hj
  obtain rfl : j = 0 := by omega
  simp

/-- A command whose reserved bits are zero is the word put together from its other fields. -/
theorem cmdWord_fields {cmd : Cmd} (h0 : cmdRsv0 cmd = false) (h1 : cmdRsv1 cmd = 0#2) :
    cmdWord (cmdFunc cmd) (cmdWc cmd) (cmdSg cmd) (cmdF cmd) = cmd := by
  have hr0 : cmd.extractLsb' 7 1 = 0#1 := by
    rw [← ofBool_getLsbD, show cmd.getLsbD 7 = false from h0]
    rfl
  have hr1 : cmd.extractLsb' 14 2 = 0#2 := h1
  have glue {lo len len' : Nat} :
      cmd.extractLsb' (lo + len) len' ++ cmd.extractLsb' lo len = cmd.extractLsb' lo (len' + len) :=
    BitVec.extractLsb'_append_extractLsb'_eq_extractLsb' rfl
  rw [cmdWord, cmdFunc, cmdWc, cmdSg, cmdF, ← hr0, ← hr1, ofBool_getLsbD, glue (lo := 8) (len := 6),
    glue (lo := 7) (len := 1), glue (lo := 6) (len := 1), glue (lo := 4) (len := 2), glue (lo := 0) (len := 4)]
  exact BitVec.extractLsb'_eq_self

/-- `i` is a well-formed operation whose command has these fields. -/
def SpelledBy (i : Instr) (func : BitVec 4) (wc : BitVec 2) (sg : Bool) (f : BitVec 6) : Prop :=
  WellFormed i = true ∧ encode i = cmdWord func wc sg f

/-! ### What each part of the decoder accepts -/

theorem spelledBy_decodeDivide (wc : BitVec 2) (sg : Bool) : SpelledBy (decodeDivide wc sg) 0x0#4 wc sg 0#6 := by
  unfold SpelledBy
  revert wc sg
  decide

theorem selectWidth_eq_ok_iff {wc : BitVec 2} {w8 w16 w32 i : Instr} :
    selectWidth wc w8 w16 w32 = .ok i ↔ wc = 0#2 ∧ w8 = i ∨ wc = 1#2 ∧ w16 = i ∨ wc = 2#2 ∧ w32 = i := by
  unfold selectWidth
  split <;> simp_all

theorem decodeMultiply_eq_ok_iff {wc : BitVec 2} {sg : Bool} {f : BitVec 6} {w8 w16 w32 i : Instr} :
    decodeMultiply wc sg f w8 w16 w32 = .ok i ↔ sg = true ∧ f = 0#6 ∧ selectWidth wc w8 w16 w32 = .ok i := by
  unfold decodeMultiply
  split_ifs <;> simp_all

theorem decodeShifted_eq_ok_iff {wc : BitVec 2} {sg : Bool} {f : BitVec 6} {i : Instr} :
    decodeShifted wc sg f = .ok i ↔
      sg = true ∧ selectWidth wc (.mulq8 f) (.mulq16 f) (.mulq32 f) = .ok i ∧ WellFormed i = true := by
  unfold decodeShifted
  cases sg with
  | false => simp
  | true =>
    rcases selectWidth wc (.mulq8 f) (.mulq16 f) (.mulq32 f) with r | j
    · simp
    · cases hj : WellFormed j <;> simpa [hj] using fun h : j = i => h ▸ hj

theorem decodeFloat_eq_ok_iff {wc : BitVec 2} {f : BitVec 6} {x : Except Reject Instr} {i : Instr} :
    decodeFloat wc f x = .ok i ↔ wc = 2#2 ∧ f = 0#6 ∧ x = .ok i := by
  unfold decodeFloat
  split_ifs <;> simp_all

theorem unsignedOnly_eq_ok_iff {sg : Bool} {i j : Instr} : unsignedOnly sg j = .ok i ↔ sg = false ∧ j = i := by
  cases sg <;> simp [unsignedOnly]

theorem spelledBy_of_decodeMultiply {func : BitVec 4} {wc : BitVec 2} {sg : Bool} {f : BitVec 6}
    {w8 w16 w32 i : Instr} (h8 : SpelledBy w8 func 0#2 true 0#6) (h16 : SpelledBy w16 func 1#2 true 0#6)
    (h32 : SpelledBy w32 func 2#2 true 0#6) (h : decodeMultiply wc sg f w8 w16 w32 = .ok i) :
    SpelledBy i func wc sg f := by
  obtain ⟨rfl, rfl, hw⟩ := decodeMultiply_eq_ok_iff.mp h
  obtain ⟨rfl, rfl⟩ | ⟨rfl, rfl⟩ | ⟨rfl, rfl⟩ := selectWidth_eq_ok_iff.mp hw
  · exact h8
  · exact h16
  · exact h32

theorem spelledBy_of_decodeShifted {wc : BitVec 2} {sg : Bool} {f : BitVec 6} {i : Instr}
    (h : decodeShifted wc sg f = .ok i) : SpelledBy i 0x4#4 wc sg f := by
  obtain ⟨rfl, hw, hwf⟩ := decodeShifted_eq_ok_iff.mp h
  obtain ⟨rfl, rfl⟩ | ⟨rfl, rfl⟩ | ⟨rfl, rfl⟩ := selectWidth_eq_ok_iff.mp hw <;> exact ⟨hwf, rfl⟩

theorem spelledBy_of_decodeFloat {func : BitVec 4} {wc : BitVec 2} {sg : Bool} {f : BitVec 6}
    {x : Except Reject Instr} {i : Instr} (hx : x = .ok i → SpelledBy i func 2#2 sg 0#6)
    (h : decodeFloat wc f x = .ok i) : SpelledBy i func wc sg f := by
  obtain ⟨rfl, rfl, hi⟩ := decodeFloat_eq_ok_iff.mp h
  exact hx hi

theorem spelledBy_of_unsignedOnly {func : BitVec 4} {wc : BitVec 2} {sg : Bool} {f : BitVec 6} {i j : Instr}
    (hj : SpelledBy j func wc false f) (h : unsignedOnly sg j = .ok i) : SpelledBy i func wc sg f := by
  obtain ⟨rfl, rfl⟩ := unsignedOnly_eq_ok_iff.mp h
  exact hj

theorem spelledBy_of_ok_ite {func : BitVec 4} {wc : BitVec 2} {sg : Bool} {f : BitVec 6} {u v i : Instr}
    (hu : SpelledBy u func wc false f) (hv : SpelledBy v func wc true f)
    (h : Except.ok (ε := Reject) (if sg then v else u) = .ok i) : SpelledBy i func wc sg f := by
  cases h
  cases sg
  · exact hu
  · exact hv

/-- An accepted command has zero reserved bits, and its fields spell what it decodes to. -/
theorem spelledBy_of_decode {cmd : Cmd} {i : Instr} (h : decode cmd = .ok i) :
    (cmdRsv0 cmd = false ∧ cmdRsv1 cmd = 0#2) ∧ SpelledBy i (cmdFunc cmd) (cmdWc cmd) (cmdSg cmd) (cmdF cmd) := by
  simp only [decode] at h
  split at h
  · cases h
  next hrsv =>
  refine ⟨by simpa using hrsv, ?_⟩
  split at h
  case h_1 hfunc =>
    split at h
    · cases h
    next hf =>
    cases h
    rw [hfunc, not_not.mp hf]
    exact spelledBy_decodeDivide _ _
  case h_2 hfunc | h_3 hfunc | h_4 hfunc =>
    exact hfunc ▸ spelledBy_of_decodeMultiply ⟨rfl, rfl⟩ ⟨rfl, rfl⟩ ⟨rfl, rfl⟩ h
  case h_5 hfunc => exact hfunc ▸ spelledBy_of_decodeShifted h
  case h_6 hfunc | h_7 hfunc | h_8 hfunc | h_9 hfunc | h_10 hfunc | h_11 hfunc =>
    exact hfunc ▸ spelledBy_of_decodeFloat (spelledBy_of_unsignedOnly ⟨rfl, rfl⟩) h
  case h_12 hfunc | h_13 hfunc =>
    exact hfunc ▸ spelledBy_of_decodeFloat (spelledBy_of_ok_ite ⟨rfl, rfl⟩ ⟨rfl, rfl⟩) h
  case h_14 => cases h

/-- Decoding drops no bit: an accepted command is the command of what it decodes to. -/
theorem encode_of_decode {cmd : Cmd} {i : Instr} (h : decode cmd = .ok i) : encode i = cmd := by
  obtain ⟨⟨h0, h1⟩, -, hi⟩ := spelledBy_of_decode h
  exact hi.trans (cmdWord_fields h0 h1)

/-- Only a well-formed operation is decoded. -/
theorem wellFormed_of_decode {cmd : Cmd} {i : Instr} (h : decode cmd = .ok i) : WellFormed i = true := by
  obtain ⟨-, hwf, -⟩ := spelledBy_of_decode h
  exact hwf

/-! ### From a command to its row -/

/-- The command of every well-formed operation is selected by the row of its mnemonic. -/
theorem Laws.TableRow.statement : ∀ i : Instr, Statement i
  | .divu8 => divu8 | .divu16 => divu16 | .divu32 => divu32 | .divu64 => divu64
  | .divs8 => divs8 | .divs16 => divs16 | .divs32 => divs32 | .divs64 => divs64
  | .mul8 => mul8 | .mul16 => mul16 | .mul32 => mul32
  | .mull8 => mull8 | .mull16 => mull16 | .mull32 => mull32
  | .mulh8 => mulh8 | .mulh16 => mulh16 | .mulh32 => mulh32
  | .mulq8 f => mulq8 f | .mulq16 f => mulq16 f | .mulq32 f => mulq32 f
  | .fadd => fadd | .fsub => fsub | .fmul => fmul | .fdiv => fdiv | .fneg => fneg | .fcmp => fcmp
  | .itofU32 => itofU32 | .itofS32 => itofS32 | .ftoiU32 => ftoiU32 | .ftoiS32 => ftoiS32

/-- The command of every operation carries its fraction width, with the reserved bits zero. -/
theorem Laws.ReservedFields.statement : ∀ i : Instr, Statement i
  | .divu8 => divu8 | .divu16 => divu16 | .divu32 => divu32 | .divu64 => divu64
  | .divs8 => divs8 | .divs16 => divs16 | .divs32 => divs32 | .divs64 => divs64
  | .mul8 => mul8 | .mul16 => mul16 | .mul32 => mul32
  | .mull8 => mull8 | .mull16 => mull16 | .mull32 => mull32
  | .mulh8 => mulh8 | .mulh16 => mulh16 | .mulh32 => mulh32
  | .mulq8 f => mulq8 f | .mulq16 f => mulq16 f | .mulq32 f => mulq32 f
  | .fadd => fadd | .fsub => fsub | .fmul => fmul | .fdiv => fdiv | .fneg => fneg | .fcmp => fcmp
  | .itofU32 => itofU32 | .itofS32 => itofS32 | .ftoiU32 => ftoiU32 | .ftoiS32 => ftoiS32

/-- The fraction width of a well-formed operation is below 2W (it is 0 outside the shifted multiplies). -/
theorem fraction_lt_of_wellFormed : ∀ i : Instr, WellFormed i = true → i.fraction.toNat < 2 * i.width
  | .mulq8 _, h | .mulq16 _, h => of_decide_eq_true h
  | .mulq32 f, _ => f.isLt
  | .divu8, _ | .divu16, _ | .divu32, _ | .divu64, _ | .divs8, _ | .divs16, _ | .divs32, _ | .divs64, _
  | .mul8, _ | .mul16, _ | .mul32, _ | .mull8, _ | .mull16, _ | .mull32, _ | .mulh8, _ | .mulh16, _ | .mulh32, _
  | .fadd, _ | .fsub, _ | .fmul, _ | .fdiv, _ | .fneg, _ | .fcmp, _
  | .itofU32, _ | .itofS32, _ | .ftoiU32, _ | .ftoiS32, _ => by decide

/-- A decoded command selects a row of its mnemonic and carries the operation's fraction width. -/
theorem exists_row_of_decode {cmd : Cmd} {i : Instr} (h : decode cmd = .ok i) :
    ∃ row ∈ opcodeRows, row.mnemonic = i.mnemonic ∧ cmd &&& row.mask = row.pattern ∧ i.fraction = cmdF cmd ∧
      (row.mask ≠ 0xFFFF#16 → (cmdF cmd).toNat < 2 * i.width) := by
  have hwf := wellFormed_of_decode h
  obtain rfl := encode_of_decode h
  obtain ⟨row, hrow, hname, hsel⟩ := Laws.TableRow.statement i hwf
  obtain ⟨-, -, hf⟩ := Laws.ReservedFields.statement i
  exact ⟨row, hrow, hname, by simpa [OpcodeRow.selects] using hsel, hf.symm,
    fun _ => hf ▸ fraction_lt_of_wellFormed i hwf⟩

/-! ### From a row to its commands -/

/-- The command of a row whose mask covers every bit is the match value. -/
theorem eq_pattern_of_fullMask {cmd pattern : Cmd} (h : cmd &&& 0xFFFF#16 = pattern) : cmd = pattern :=
  (BitVec.and_allOnes (x := cmd)).symm.trans h

/-- A command with zero reserved bits and the function code of the shifted multiplies is decoded by `decodeShifted`. -/
theorem decode_eq_decodeShifted {cmd : Cmd} (h0 : cmdRsv0 cmd = false) (h1 : cmdRsv1 cmd = 0#2)
    (hfunc : cmdFunc cmd = 0x4#4) : decode cmd = decodeShifted (cmdWc cmd) (cmdSg cmd) (cmdF cmd) := by
  simp [decode, h0, h1, hfunc]

/-- Commands that agree outside `f` have the same other fields. -/
theorem fields_eq_of_agree_outside_f {cmd cmd' : Cmd} (h : cmd &&& 0xC0FF#16 = cmd' &&& 0xC0FF#16) :
    cmdFunc cmd = cmdFunc cmd' ∧ cmdWc cmd = cmdWc cmd' ∧ cmdSg cmd = cmdSg cmd' ∧
    cmdRsv0 cmd = cmdRsv0 cmd' ∧ cmdRsv1 cmd = cmdRsv1 cmd' := by
  have slice {lo len : Nat} (hm : (0xC0FF#16).extractLsb' lo len = BitVec.allOnes len) :
      cmd.extractLsb' lo len = cmd'.extractLsb' lo len := by
    have he := congrArg (BitVec.extractLsb' lo len) h
    rwa [BitVec.extractLsb'_and, BitVec.extractLsb'_and, hm, BitVec.and_allOnes, BitVec.and_allOnes] at he
  have bit {k : Nat} (hm : (0xC0FF#16).getLsbD k = true) : cmd.getLsbD k = cmd'.getLsbD k := by
    simpa [hm] using congrArg (BitVec.getLsbD · k) h
  exact ⟨slice rfl, slice rfl, bit rfl, bit rfl, slice rfl⟩

/-- The fields of the command of a shifted multiply with `f = 0`. -/
theorem fields_shiftedWord : ∀ wc : BitVec 2,
    cmdFunc (cmdWord 0x4#4 wc true 0#6) = 0x4#4 ∧ cmdWc (cmdWord 0x4#4 wc true 0#6) = wc ∧
    cmdSg (cmdWord 0x4#4 wc true 0#6) = true ∧ cmdRsv0 (cmdWord 0x4#4 wc true 0#6) = false ∧
    cmdRsv1 (cmdWord 0x4#4 wc true 0#6) = 0#2 ∧ cmdF (cmdWord 0x4#4 wc true 0#6) = 0#6 := by
  decide

/-- A command of a row for a shifted multiply, whose mask covers every bit outside `f`: what the mask covers of `f` is
zero, and the other fields are the row's. -/
theorem decode_of_shifted_row {cmd mask : Cmd} {wc : BitVec 2} (h : cmd &&& mask = cmdWord 0x4#4 wc true 0#6)
    (hm : mask &&& 0xC0FF#16 = 0xC0FF#16) :
    cmdF cmd &&& cmdF mask = 0#6 ∧ decode cmd = decodeShifted wc true (cmdF cmd) := by
  obtain ⟨hfunc, hwc, hsg, hrsv0, hrsv1, hf⟩ := fields_shiftedWord wc
  constructor
  · rw [← hf, ← h]
    exact BitVec.extractLsb'_and.symm
  · have hfix : cmd &&& 0xC0FF#16 = cmdWord 0x4#4 wc true 0#6 &&& 0xC0FF#16 := by rw [← h, BitVec.and_assoc, hm]
    obtain ⟨efunc, ewc, esg, ersv0, ersv1⟩ := fields_eq_of_agree_outside_f hfix
    rw [decode_eq_decodeShifted (ersv0.trans hrsv0) (ersv1.trans hrsv1) (efunc.trans hfunc), ewc, hwc, esg, hsg]

theorem decode_of_mulq8_row {cmd : Cmd} (h : cmd &&& 0xF0FF#16 = 0x0044#16) :
    decode cmd = .ok (.mulq8 (cmdF cmd)) := by
  obtain ⟨hf, hd⟩ := decode_of_shifted_row (wc := 0#2) h (by decide)
  have hwf : ∀ f : BitVec 6, f &&& cmdF 0xF0FF#16 = 0#6 → WellFormed (.mulq8 f) = true := by decide
  exact hd.trans (decodeShifted_eq_ok_iff.mpr ⟨rfl, rfl, hwf _ hf⟩)

theorem decode_of_mulq16_row {cmd : Cmd} (h : cmd &&& 0xE0FF#16 = 0x0054#16) :
    decode cmd = .ok (.mulq16 (cmdF cmd)) := by
  obtain ⟨hf, hd⟩ := decode_of_shifted_row (wc := 1#2) h (by decide)
  have hwf : ∀ f : BitVec 6, f &&& cmdF 0xE0FF#16 = 0#6 → WellFormed (.mulq16 f) = true := by decide
  exact hd.trans (decodeShifted_eq_ok_iff.mpr ⟨rfl, rfl, hwf _ hf⟩)

/-- Every value of the 6-bit `f` is below 2W at W = 32. -/
theorem decode_of_mulq32_row {cmd : Cmd} (h : cmd &&& 0xC0FF#16 = 0x0064#16) :
    decode cmd = .ok (.mulq32 (cmdF cmd)) := by
  obtain ⟨-, hd⟩ := decode_of_shifted_row (wc := 2#2) h (by decide)
  exact hd.trans (decodeShifted_eq_ok_iff.mpr ⟨rfl, rfl, rfl⟩)

/-- The match value of every row decodes to an operation of its mnemonic. -/
theorem decode_pattern_mnemonic :
    ∀ row ∈ opcodeRows, (decode row.pattern).map Instr.mnemonic = .ok row.mnemonic := by
  decide

/-- The rows whose mask leaves bits free are those of the shifted multiplies. -/
theorem fullMask_or_shifted : ∀ row ∈ opcodeRows, row.mask = 0xFFFF#16 ∨
    row ∈ [⟨"MULQ8", 0x0044#16, 0xF0FF#16⟩, ⟨"MULQ16", 0x0054#16, 0xE0FF#16⟩, ⟨"MULQ32", 0x0064#16, 0xC0FF#16⟩] := by
  decide

/-- A command that selects a row decodes to an operation of the row's mnemonic. -/
theorem decode_of_row {cmd : Cmd} {row : OpcodeRow} (hrow : row ∈ opcodeRows) (h : cmd &&& row.mask = row.pattern) :
    ∃ i, decode cmd = .ok i ∧ i.mnemonic = row.mnemonic := by
  obtain hfull | hshifted := fullMask_or_shifted row hrow
  · obtain rfl : cmd = row.pattern := eq_pattern_of_fullMask (hfull ▸ h)
    have hname := decode_pattern_mnemonic row hrow
    rcases hd : decode row.pattern with r | i
    · simp [hd, Except.map] at hname
    · exact ⟨i, rfl, by simpa [hd, Except.map] using hname⟩
  · simp only [List.mem_cons, List.not_mem_nil, or_false] at hshifted
    obtain rfl | rfl | rfl := hshifted
    · exact ⟨_, decode_of_mulq8_row h, rfl⟩
    · exact ⟨_, decode_of_mulq16_row h, rfl⟩
    · exact ⟨_, decode_of_mulq32_row h, rfl⟩

/-! ### No two rows overlap -/

/-- Rows whose match values differ on a bit that both masks cover select no common command. -/
theorem not_both_selected {r t : OpcodeRow} (h : r.pattern &&& t.mask ≠ t.pattern &&& r.mask) (cmd : Cmd) :
    ¬(cmd &&& r.mask = r.pattern ∧ cmd &&& t.mask = t.pattern) := by
  rintro ⟨hr, ht⟩
  rw [← hr, ← ht] at h
  exact h (by ac_rfl)

theorem opcodeRows_pairwise_disjoint :
    opcodeRows.Pairwise fun r t => ∀ cmd : Cmd, ¬(cmd &&& r.mask = r.pattern ∧ cmd &&& t.mask = t.pattern) :=
  List.Pairwise.imp not_both_selected
    (show opcodeRows.Pairwise fun r t => r.pattern &&& t.mask ≠ t.pattern &&& r.mask by decide)

/-- Settles O3: `exists_row_of_decode` from a command to its row, `decode_of_row` back, and the rows disjoint. -/
theorem decodeFollowsOpcodeMap : Obligations.DecodeFollowsOpcodeMap :=
  ⟨fun _ _ => exists_row_of_decode, fun _ _ => decode_of_row, by decide, opcodeRows_pairwise_disjoint⟩

end Sys2Proof
end

section
/-! PROOF. The unsigned division engine (40_integer_divide.md R101 to R105). Before numerator bit `k - 1` the loop has
divided the numerator without its low `k` bits: the partial remainder is the remainder of that division, and the
quotient is its quotient at its final place. One iteration of R104 is one step of long division in base 2. -/

namespace Sys2Proof.Machine

/-! ### One iteration of the restoring loop -/

/-- The loop has divided the numerator without its low `k` bits. -/
def DivInvariant {E : Nat} (n d : BitVec E) (k : Nat) (w : DivWork E) : Prop :=
  w.r.toNat = n.toNat / 2 ^ k % d.toNat ∧ w.q.toNat = n.toNat / 2 ^ k / d.toNat * 2 ^ k

/-- A numerator cut one bit lower is the double of the cut numerator plus that bit. -/
theorem toNat_div_two_pow_eq {E : Nat} (n : BitVec E) (k : Nat) :
    n.toNat / 2 ^ k = 2 * (n.toNat / 2 ^ (k + 1)) + (n.getLsbD k).toNat := by
  rw [BitVec.getLsbD, Nat.toNat_testBit, Nat.pow_succ, ← Nat.div_div_eq_div_mul, Nat.div_add_mod]

/-- Shifting a bit into a remainder below `2 ^ E` loses nothing in `E + 1` bits. -/
theorem shiftIn_toNat {E : Nat} (r : BitVec (E + 1)) (b : Bool) (hr : r.toNat < 2 ^ E) :
    ((r <<< 1) ||| (BitVec.ofBool b).setWidth (E + 1)).toNat = 2 * r.toNat + b.toNat := by
  have hb : b.toNat < 2 ^ 1 := b.toNat_lt
  have hfit : 2 * r.toNat < 2 ^ (E + 1) := by omega
  have hone : 2 ^ 1 ≤ 2 ^ (E + 1) := Nat.pow_le_pow_right (by decide) (by omega)
  rw [BitVec.toNat_or, BitVec.toNat_shiftLeft, BitVec.toNat_setWidth, BitVec.toNat_ofBool, Nat.shiftLeft_eq,
    Nat.mul_comm, Nat.pow_one, Nat.mod_eq_of_lt hfit, Nat.mod_eq_of_lt (hb.trans_le hone)]
  exact (Nat.two_pow_add_eq_or_of_lt hb r.toNat).symm

/-- Setting bit `k` of a quotient whose low `k + 1` bits are zero adds `2 ^ k`. -/
theorem setBit_toNat {E k : Nat} (q : BitVec E) (m : Nat) (hk : k < E) (hq : q.toNat = m * 2 ^ (k + 1)) :
    (q ||| (1#E <<< k)).toNat = (2 * m + 1) * 2 ^ k := by
  have hlt : 2 ^ k < 2 ^ (k + 1) := Nat.pow_lt_pow_right (by decide) (by omega)
  have hbit : (1#E <<< k).toNat = 2 ^ k := by
    rw [← BitVec.twoPow_eq, BitVec.toNat_twoPow_of_lt hk]
  rw [BitVec.toNat_or, hbit, hq, Nat.mul_comm, ← Nat.two_pow_add_eq_or_of_lt hlt]
  ring

/-- Long division in base 2, where the divisor goes into the shifted remainder. -/
theorem divMod_of_le_shifted {N d b : Nat} (hb : b ≤ 1) (hd : 0 < d) (h : d ≤ 2 * (N % d) + b) :
    (2 * N + b) / d = 2 * (N / d) + 1 ∧ (2 * N + b) % d = 2 * (N % d) + b - d := by
  have hr : N % d < d := Nat.mod_lt N hd
  have hN : d * (N / d) + N % d = N := Nat.div_add_mod N d
  refine (Nat.div_mod_unique hd).mpr ⟨?_, by omega⟩
  rw [Nat.mul_add, Nat.mul_left_comm]
  omega

/-- Long division in base 2, where the divisor does not go into the shifted remainder. -/
theorem divMod_of_shifted_lt {N d b : Nat} (h : 2 * (N % d) + b < d) :
    (2 * N + b) / d = 2 * (N / d) ∧ (2 * N + b) % d = 2 * (N % d) + b := by
  have hN : d * (N / d) + N % d = N := Nat.div_add_mod N d
  refine (Nat.div_mod_unique (by omega)).mpr ⟨?_, h⟩
  rw [Nat.mul_left_comm]
  omega

/-- One iteration of R104 divides one more numerator bit. -/
theorem divStep_keeps_invariant {E k : Nat} {n d : BitVec E} {w : DivWork E} (hd : 0 < d.toNat) (hk : k < E)
    (h : DivInvariant n d (k + 1) w) : DivInvariant n d k (divStep n d k w) := by
  obtain ⟨hr, hq⟩ := h
  have hrd : w.r.toNat < d.toNat := hr ▸ Nat.mod_lt _ hd
  have hd' : (d.setWidth (E + 1)).toNat = d.toNat := BitVec.toNat_setWidth_of_le (by omega)
  have hshift := shiftIn_toNat w.r (n.getLsbD k) (hrd.trans d.isLt)
  have hbit : (n.getLsbD k).toNat ≤ 1 := Bool.toNat_le _
  rw [DivInvariant, toNat_div_two_pow_eq n k]
  unfold divStep
  simp only [BitVec.le_def, hshift, hd']
  split
  next hle =>
    obtain ⟨hquot, hrem⟩ := divMod_of_le_shifted hbit hd (hr ▸ hle)
    rw [hquot, hrem]
    refine ⟨?_, setBit_toNat w.q _ hk hq⟩
    rw [BitVec.toNat_sub_of_le (by rwa [BitVec.le_def, hshift, hd']), hshift, hd', hr]
  next hlt =>
    obtain ⟨hquot, hrem⟩ := divMod_of_shifted_lt (not_le.mp (hr ▸ hlt))
    rw [hquot, hrem]
    refine ⟨by rw [hshift, hr], ?_⟩
    rw [hq]
    ring

/-- The iterations of R104 divide all remaining numerator bits. -/
theorem divLoop_keeps_invariant {E : Nat} {n d : BitVec E} (hd : 0 < d.toNat) :
    ∀ {k : Nat} {w : DivWork E}, k ≤ E → DivInvariant n d k w → DivInvariant n d 0 (divLoop n d k w)
  | 0, _, _, h => h
  | k + 1, _, hk, h => divLoop_keeps_invariant hd (k := k) (by omega) (divStep_keeps_invariant hd hk h)

/-- Before the first iteration no numerator bit is divided. -/
theorem divInvariant_init {E : Nat} (n d : BitVec E) : DivInvariant n d E { r := 0#(E + 1), q := 0#E } := by
  simp [DivInvariant, Nat.div_eq_of_lt n.isLt]

/-! ### What the engine returns -/

theorem natQuotient_le (n d : Nat) : natQuotient n d ≤ n := by
  unfold natQuotient
  split
  · exact Nat.zero_le n
  · exact Nat.div_le_self n d

theorem natRemainder_le (n d : Nat) : natRemainder n d ≤ n := by
  unfold natRemainder
  split
  · exact Nat.zero_le n
  · exact Nat.mod_le n d

@[simp] theorem udiv_zero {E : Nat} (n : BitVec E) : udiv n 0#E = (0#E, 0#E) := if_pos rfl

/-- The engine's two results are the quotient and the remainder of R101 and R102. -/
theorem udiv_toNat {E : Nat} (n d : BitVec E) :
    (udiv n d).1.toNat = natQuotient n.toNat d.toNat ∧ (udiv n d).2.toNat = natRemainder n.toNat d.toNat := by
  by_cases h : d = 0#E
  · subst h
    simp [natQuotient, natRemainder]
  · have hd : d.toNat ≠ 0 := BitVec.toNat_ne_iff_ne.mpr h
    obtain ⟨hr, hq⟩ := divLoop_keeps_invariant (Nat.pos_of_ne_zero hd) le_rfl (divInvariant_init n d)
    have hlt : n.toNat % d.toNat < 2 ^ E := (Nat.mod_le _ _).trans_lt n.isLt
    rw [Nat.pow_zero, Nat.div_one] at hr hq
    rw [Nat.mul_one] at hq
    simp only [udiv, if_neg h, natQuotient, natRemainder, if_neg hd, BitVec.toNat_setWidth]
    exact ⟨hq, by rw [hr, Nat.mod_eq_of_lt hlt]⟩

/-- Settles O19: the loop's invariant with no numerator bit left. -/
theorem engineDividesExactly : Obligations.EngineDividesExactly := by
  intro E n d hd
  have hd0 : d.toNat ≠ 0 := BitVec.toNat_ne_iff_ne.mpr hd
  obtain ⟨hq, hr⟩ := udiv_toNat n d
  have hsplit : n.toNat / d.toNat * d.toNat + n.toNat % d.toNat = n.toNat := Nat.div_add_mod' _ _
  rw [hq, hr, natQuotient, natRemainder, if_neg hd0, if_neg hd0]
  exact ⟨rfl, by omega, hsplit.symm, Nat.mod_lt _ (Nat.pos_of_ne_zero hd0)⟩

/-! ### The divides on their engine -/

@[simp] theorem divideUnsigned_zero {W : Nat} (n : BitVec W) : divideUnsigned n 0#W = (0#W, 0#W) := by
  simp [divideUnsigned]

@[simp] theorem negateIf_zero {W : Nat} (neg : Bool) : negateIf neg 0#W = 0#W := by simp [negateIf]

@[simp] theorem magnitude_zero {W : Nat} : magnitude 0#W = 0#W := negateIf_zero _

@[simp] theorem divideSigned_zero {W : Nat} (a : BitVec W) : divideSigned a 0#W = (0#W, 0#W) := by
  simp [divideSigned]

@[simp] theorem toPort_zero {W : Nat} : toPort 0#W = 0#64 := BitVec.setWidth_zero 64 W

/-- Each DIVU completes with the two results of the unsigned division at its width. -/
theorem responds_divu_iff {i : Instr} {s : State} {r0 r1 : Port} (hi : i ∈ [Instr.divu8, .divu16, .divu32, .divu64]) :
    Responds i s r0 r1 ↔
      r0 = toPort (divideUnsigned (lowBits i.width s.a) (lowBits i.width s.b)).1 ∧
      r1 = toPort (divideUnsigned (lowBits i.width s.a) (lowBits i.width s.b)).2 := by
  fin_cases hi <;> exact responds_iff_results _ s r0 r1

/-- Each DIVS completes with the two results of the signed division at its width. -/
theorem responds_divs_iff {i : Instr} {s : State} {r0 r1 : Port} (hi : i ∈ [Instr.divs8, .divs16, .divs32, .divs64]) :
    Responds i s r0 r1 ↔
      r0 = toPort (divideSigned (lowBits i.width s.a) (lowBits i.width s.b)).1 ∧
      r1 = toPort (divideSigned (lowBits i.width s.a) (lowBits i.width s.b)).2 := by
  fin_cases hi <;> exact responds_iff_results _ s r0 r1

/-- Settles O20: the zero check stands before the loop, and the signed adapter negates nothing but zeros. -/
theorem divisionByZeroGivesZeros : Obligations.DivisionByZeroGivesZeros := by
  refine ⟨fun E n => udiv_zero n, fun i s hi hb => ?_⟩
  obtain hu | hs := List.mem_append (s := [Instr.divu8, .divu16, .divu32, .divu64]).mp hi
  · rw [responds_divu_iff hu, hb, divideUnsigned_zero, toPort_zero]
    exact ⟨rfl, rfl⟩
  · rw [responds_divs_iff hs, hb, divideSigned_zero, toPort_zero]
    exact ⟨rfl, rfl⟩

/-- An operand width fits its engine, so a division there gives the quotient and the remainder of the operands. -/
theorem divideUnsigned_toNat {W : Nat} (n d : BitVec W) (hW : W ≤ engineWidth W) :
    (divideUnsigned n d).1.toNat = natQuotient n.toNat d.toNat ∧
    (divideUnsigned n d).2.toNat = natRemainder n.toNat d.toNat := by
  obtain ⟨hq, hr⟩ := udiv_toNat (n.setWidth (engineWidth W)) (d.setWidth (engineWidth W))
  rw [BitVec.toNat_setWidth_of_le hW, BitVec.toNat_setWidth_of_le hW] at hq hr
  constructor
  · rw [divideUnsigned, BitVec.toNat_setWidth, hq, Nat.mod_eq_of_lt ((natQuotient_le _ _).trans_lt n.isLt)]
  · rw [divideUnsigned, BitVec.toNat_setWidth, hr, Nat.mod_eq_of_lt ((natRemainder_le _ _).trans_lt n.isLt)]

/-- Every operation's operands fit the engine of their width (R103). -/
theorem width_le_engineWidth (i : Instr) : i.width ≤ engineWidth i.width := by
  cases i <;> simp [Instr.width, engineWidth]

/-- Settles O21: each DIVU drives its engine's results, which are the quotient and the remainder. -/
theorem unsignedDivides : Obligations.UnsignedDivides := by
  intro i s hi
  obtain ⟨hq, hr⟩ := divideUnsigned_toNat (lowBits i.width s.a) (lowBits i.width s.b) (width_le_engineWidth i)
  rw [responds_divu_iff hi, ← hq, ← hr]
  exact ⟨BitVec.ofNat_toNat _ _, BitVec.ofNat_toNat _ _⟩

end Sys2Proof.Machine
end

section
/-! PROOF. The multiplier (41_integer_multiply.md R130 to R132). From multiplier bit `i` upward the loop adds the
multiplicand as it stands times the multiplier without its low `i` bits, so from bit 0 it adds the product of the
sign-extended operands. That is R130's product; the results of the operations are the slices of it. -/

namespace Sys2Proof.Machine

/-! ### The shift-and-add loop -/

/-- One iteration adds the multiplicand times the multiplier bit. -/
theorem mulStep_acc {N : Nat} (y : BitVec N) (i : Nat) (w : MulWork N) :
    (mulStep y i w).acc = w.acc + w.x * BitVec.ofNat N (y.getLsbD i).toNat := by
  unfold mulStep
  cases y.getLsbD i <;> simp

/-- One iteration doubles the multiplicand. -/
theorem mulStep_x {N : Nat} (y : BitVec N) (i : Nat) (w : MulWork N) : (mulStep y i w).x = w.x * 2#N := by
  apply BitVec.eq_of_toNat_eq
  simp [mulStep, Nat.shiftLeft_eq]

/-- The iterations of R131 from bit `i` to the multiplier's last add the multiplicand times the multiplier's bits from
`i` upward. -/
theorem mulLoop_acc {N : Nat} (y : BitVec N) : ∀ (k i : Nat) (w : MulWork N), y.toNat < 2 ^ (i + k) →
    (mulLoop y k i w).acc = w.acc + w.x * BitVec.ofNat N (y.toNat / 2 ^ i)
  | 0, i, w, h => by
    have hnone : y.toNat / 2 ^ i = 0 := Nat.div_eq_of_lt h
    simp [mulLoop, hnone]
  | k + 1, i, w, h => by
    have hrest : y.toNat < 2 ^ (i + 1 + k) := by rwa [Nat.add_right_comm]
    rw [mulLoop, mulLoop_acc y k (i + 1) (mulStep y i w) hrest, mulStep_acc, mulStep_x, toNat_div_two_pow_eq y i,
      BitVec.ofNat_add, BitVec.ofNat_mul]
    ring

/-- The shift-and-add product is the product of the signed readings of the operands, as a pattern (R130). -/
theorem product_eq_ofInt {W : Nat} (a b : BitVec W) : product a b = BitVec.ofInt (2 * W) (a.toInt * b.toInt) := by
  have hlt : (b.signExtend (2 * W)).toNat < 2 ^ (0 + 2 * W) := by
    rw [Nat.zero_add]
    exact BitVec.isLt _
  rw [product, mulLoop_acc _ _ _ _ hlt, BitVec.zero_add, Nat.pow_zero, Nat.div_one, BitVec.ofNat_toNat,
    BitVec.setWidth_eq]
  exact (BitVec.ofInt_mul _ _).symm

/-- The product is exact as a signed 2W-bit value (R130). -/
theorem product_toInt {W : Nat} (a b : BitVec W) : (product a b).toInt = a.toInt * b.toInt := by
  rw [product_eq_ofInt]
  obtain rfl | hW := Nat.eq_zero_or_pos W
  · simp [BitVec.of_length_zero]
  · have hlow : -(2 ^ (2 * W - 2)) ≤ a.toInt * b.toInt := Nat.mul_comm W 2 ▸ BitVec.le_toInt_mul_toInt
    have hhigh : a.toInt * b.toInt ≤ 2 ^ (2 * W - 2) := Nat.mul_comm W 2 ▸ BitVec.toInt_mul_toInt_le
    have hpow : (2 : Int) ^ (2 * W - 2) < 2 ^ (2 * W - 1) := pow_lt_pow_right₀ (by decide) (by omega)
    exact BitVec.toInt_ofInt_eq_self (by omega) (by omega) (by omega)

/-! ### The slices -/

/-- The low bits of a pattern are those of its signed value. -/
theorem extractLsb'_zero_eq_ofInt {N W : Nat} (v : BitVec N) (h : W ≤ N) :
    v.extractLsb' 0 W = BitVec.ofInt W v.toInt :=
  (BitVec.setWidth_eq_extractLsb' h).symm.trans (BitVec.signExtend_eq_setWidth_of_le v h).symm

/-- The low half is the wraparound product of the signed readings (R132). -/
theorem productLow_eq_ofInt {W : Nat} (a b : BitVec W) : productLow a b = BitVec.ofInt W (a.toInt * b.toInt) := by
  rw [productLow, extractLsb'_zero_eq_ofInt _ (by omega), product_toInt]

/-- Signed and unsigned readings have the same wraparound product (R130). -/
theorem ofInt_toInt_mul_toInt {W : Nat} (a b : BitVec W) :
    BitVec.ofInt W (a.toInt * b.toInt) = BitVec.ofNat W (a.toNat * b.toNat) := by
  rw [BitVec.ofInt_mul, BitVec.ofNat_mul]
  simp

/-- The arithmetic shift of the product rounds toward −∞ (R132). -/
theorem product_sshiftRight_toInt {W : Nat} (a b : BitVec W) (f : Nat) :
    ((product a b).sshiftRight f).toInt = ⌊((a.toInt * b.toInt : ℤ) : ℚ) / 2 ^ f⌋ := by
  have hfloor : ⌊((a.toInt * b.toInt : ℤ) : ℚ) / 2 ^ f⌋ = a.toInt * b.toInt / 2 ^ f := by
    exact_mod_cast Rat.floor_intCast_div_natCast (a.toInt * b.toInt) (2 ^ f)
  rw [BitVec.toInt_sshiftRight, product_toInt, Int.shiftRight_eq_div_pow, hfloor]
  norm_cast

/-- The shifted product is the quotient by `2 ^ f` rounded toward −∞, cut to W bits (R132). -/
theorem productShifted_eq_ofInt {W : Nat} (f : Nat) (a b : BitVec W) :
    productShifted f a b = BitVec.ofInt W ⌊((a.toInt * b.toInt : ℤ) : ℚ) / 2 ^ f⌋ := by
  rw [productShifted, extractLsb'_zero_eq_ofInt _ (by omega), product_sshiftRight_toInt]

/-! ### The multiplies -/

/-- Settles O27: MUL drives the whole product, which is the signed one. -/
theorem fullProducts : Obligations.FullProducts := by
  refine ⟨by decide, by decide, by decide, fun s => ⟨?_, ?_, ?_⟩⟩
  · exact (responds_iff_results .mul8 s _ _).mpr ⟨congrArg toPort (product_eq_ofInt _ _).symm, rfl⟩
  · exact (responds_iff_results .mul16 s _ _).mpr ⟨congrArg toPort (product_eq_ofInt _ _).symm, rfl⟩
  · have hport := (BitVec.setWidth_eq (product (lowBits 32 s.a) (lowBits 32 s.b))).symm
    exact (responds_iff_results .mul32 s _ _).mpr ⟨(product_eq_ofInt _ _).symm.trans hport, rfl⟩

/-- Each MULL completes with the low half of the product at its width. -/
theorem responds_mull_iff {i : Instr} {s : State} {r0 r1 : Port} (hi : i ∈ [Instr.mull8, .mull16, .mull32]) :
    Responds i s r0 r1 ↔ r0 = toPort (productLow (lowBits i.width s.a) (lowBits i.width s.b)) ∧ r1 = 0#64 := by
  fin_cases hi <;> exact responds_iff_results _ s r0 r1

/-- Settles O28: MULL drives the low half, which is the wraparound product under either reading. -/
theorem lowProducts : Obligations.LowProducts := by
  refine ⟨by decide, by decide, by decide, fun i s hi => ?_⟩
  rw [← ofInt_toInt_mul_toInt, and_self, responds_mull_iff hi, productLow_eq_ofInt]
  exact ⟨rfl, rfl⟩

/-- Each MULQ completes with the shifted product at its width. -/
theorem responds_mulq_iff {f : BitVec 6} {i : Instr} {s : State} {r0 r1 : Port}
    (hi : i ∈ [Instr.mulq8 f, .mulq16 f, .mulq32 f]) :
    Responds i s r0 r1 ↔
      r0 = toPort (productShifted f.toNat (lowBits i.width s.a) (lowBits i.width s.b)) ∧ r1 = 0#64 := by
  fin_cases hi <;> exact responds_iff_results _ s r0 r1

/-- A fraction width put in its place in a command with `f = 0` is read back. -/
theorem cmdF_or_fraction {cmd : Cmd} (h : cmdF cmd = 0#6) (f : BitVec 6) :
    cmdF (cmd ||| f.setWidth 16 <<< 8) = f := by
  have hfield : cmdF (f.setWidth 16 <<< 8) = f := by
    revert f
    decide
  rw [cmdF, BitVec.extractLsb'_or, ← cmdF, ← cmdF, h, hfield, BitVec.zero_or]

theorem decode_mulq8_command {f : BitVec 6} (h : f.toNat < 16) :
    decode (0x0044#16 ||| f.setWidth 16 <<< 8) = .ok (.mulq8 f) := by
  have hrow : ∀ f : BitVec 6, f.toNat < 16 → (0x0044#16 ||| f.setWidth 16 <<< 8) &&& 0xF0FF#16 = 0x0044#16 := by decide
  rw [decode_of_mulq8_row (hrow f h), cmdF_or_fraction (by decide)]

theorem decode_mulq16_command {f : BitVec 6} (h : f.toNat < 32) :
    decode (0x0054#16 ||| f.setWidth 16 <<< 8) = .ok (.mulq16 f) := by
  have hrow : ∀ f : BitVec 6, f.toNat < 32 → (0x0054#16 ||| f.setWidth 16 <<< 8) &&& 0xE0FF#16 = 0x0054#16 := by decide
  rw [decode_of_mulq16_row (hrow f h), cmdF_or_fraction (by decide)]

theorem decode_mulq32_command (f : BitVec 6) :
    decode (0x0064#16 ||| f.setWidth 16 <<< 8) = .ok (.mulq32 f) := by
  have hrow : ∀ f : BitVec 6, (0x0064#16 ||| f.setWidth 16 <<< 8) &&& 0xC0FF#16 = 0x0064#16 := by decide
  rw [decode_of_mulq32_row (hrow f), cmdF_or_fraction (by decide)]

/-- Settles O30: each command selects its row of the opcode map, and MULQ drives the shifted product. -/
theorem shiftedProducts : Obligations.ShiftedProducts := by
  refine ⟨fun _ => decode_mulq8_command, fun _ => decode_mulq16_command, decode_mulq32_command, fun f i s hi => ?_⟩
  rw [responds_mulq_iff hi, productShifted_eq_ofInt]
  exact ⟨rfl, rfl⟩

end Sys2Proof.Machine
end

section
/-! PROOF. The classifier by the fields of a pattern (42_float_common.md R161), and the NaN tests that follow from it
(R164). -/

namespace Sys2Proof.Machine

/-! ### One equation per class -/

theorem classify_of_zero {x : B32} (he : expf x = 0#8) (hf : frac x = 0#23) : classify x = .zero (sgn x) := by
  simp [classify, he, hf]

theorem classify_of_subnormal {x : B32} (he : expf x = 0#8) (hf : frac x ≠ 0#23) :
    classify x = .subnormal (sgn x) (frac x) := by
  simp [classify, he, hf]

theorem classify_of_normal {x : B32} (h0 : expf x ≠ 0#8) (h1 : expf x ≠ 0xFF#8) :
    classify x = .normal (sgn x) (expf x) (frac x) := by
  simp [classify, h0, h1]

theorem classify_of_inf {x : B32} (he : expf x = 0xFF#8) (hf : frac x = 0#23) : classify x = .inf (sgn x) := by
  simp [classify, he, hf]

theorem classify_of_nan {x : B32} (he : expf x = 0xFF#8) (hf : frac x ≠ 0#23) :
    classify x = .nan (sgn x) (x.getLsbD 22) (frac x) := by
  simp [classify, he, hf]

/-- Settles O32: one equation of the classifier per clause, an exponent from 1 to 254 being neither 0 nor 0xFF. -/
theorem classifierFollowsTheFields : Obligations.ClassifierFollowsTheFields := by
  refine fun x => ⟨classify_of_zero, classify_of_subnormal, fun hlow hhigh => ?_, classify_of_inf, classify_of_nan⟩
  have h0 : expf x ≠ 0#8 := fun h => by simp [h] at hlow
  have h1 : expf x ≠ 0xFF#8 := fun h => by simp [h] at hhigh
  exact classify_of_normal h0 h1

/-! ### The NaN tests -/

/-- A NaN is a pattern with an exponent of all ones and a nonzero significand field. -/
theorem isNaN_iff (x : B32) : isNaN x = true ↔ expf x = 0xFF#8 ∧ frac x ≠ 0#23 := by
  by_cases he : expf x = 0xFF#8
  · by_cases hf : frac x = 0#23
    · simp [isNaN, classify_of_inf he hf, hf]
    · simp [isNaN, classify_of_nan he hf, he, hf]
  · simp [isNaN_of_expf he, he]

/-- A NaN is quiet when its bit 22 is set (R164). -/
theorem isQuietNaN_of_isNaN {x : B32} (h : isNaN x = true) : isQuietNaN x = x.getLsbD 22 := by
  obtain ⟨he, hf⟩ := (isNaN_iff x).mp h
  rw [isQuietNaN, classify_of_nan he hf]

@[simp] theorem isNaN_signedZero (s : Bool) : isNaN (signedZero s) = false := by simp [isNaN]

@[simp] theorem isNaN_signedInf (s : Bool) : isNaN (signedInf s) = false := by simp [isNaN]

/-- Negation (R207) keeps the exponent field. -/
@[simp] theorem expf_floatNeg (x : B32) : expf (floatNeg x) = expf x := by
  rw [expf, floatNeg, BitVec.extractLsb'_xor]
  exact BitVec.xor_zero

/-- Negation (R207) keeps the significand field. -/
@[simp] theorem frac_floatNeg (x : B32) : frac (floatNeg x) = frac x := by
  rw [frac, floatNeg, BitVec.extractLsb'_xor]
  exact BitVec.xor_zero

@[simp] theorem isNaN_floatNeg (x : B32) : isNaN (floatNeg x) = isNaN x := by
  rw [Bool.eq_iff_iff, isNaN_iff, isNaN_iff, expf_floatNeg, frac_floatNeg]

end Sys2Proof.Machine
end

section
/-! PROOF. Rounding to an integer (42_float_common.md R166). The rule rounds up by the part of the value above its floor;
the machine's division and its guard, round and sticky bits compare that part with one half. -/

namespace Sys2Proof.Machine

/-! ### The rule -/

theorem roundExact_floor_or_next (m : Rounding) (v : ℚ) : roundExact m v = ⌊v⌋ ∨ roundExact m v = ⌊v⌋ + 1 := by
  unfold roundExact
  cases m
  · simp only
    split_ifs <;> simp
  · simp

/-- Rounding does not go below an integer that the value reaches. -/
theorem le_roundExact (m : Rounding) {v : ℚ} {n : ℤ} (h : (n : ℚ) ≤ v) : n ≤ roundExact m v := by
  have hfloor : n ≤ ⌊v⌋ := Int.le_floor.mpr h
  obtain hr | hr := roundExact_floor_or_next m v <;> omega

/-- Rounding does not go above an integer that the value stays below. -/
theorem roundExact_le (m : Rounding) {v : ℚ} {n : ℤ} (h : v < n) : roundExact m v ≤ n := by
  have hfloor : ⌊v⌋ < n := Int.floor_lt.mpr h
  obtain hr | hr := roundExact_floor_or_next m v <;> omega

/-- RNE goes up from `v` (R166): more than half lies above the floor, or exactly half of it above an odd floor. -/
def RoundsUp (v : ℚ) : Prop := 1 / 2 < v - ⌊v⌋ ∨ v - ⌊v⌋ = 1 / 2 ∧ ⌊v⌋ % 2 = 1

theorem roundExact_of_roundsUp {v : ℚ} (h : RoundsUp v) : roundExact .nearestEven v = ⌊v⌋ + 1 := by
  unfold roundExact
  obtain habove | ⟨hhalf, hodd⟩ := h
  · simp only [if_neg habove.not_gt, if_pos habove]
  · simp [hhalf, hodd]

theorem roundExact_of_not_roundsUp {v : ℚ} (h : ¬RoundsUp v) : roundExact .nearestEven v = ⌊v⌋ := by
  unfold roundExact
  obtain hbelow | hhalf | habove := lt_trichotomy (v - ⌊v⌋) (1 / 2)
  · simp only [if_pos hbelow]
  · have heven : ⌊v⌋ % 2 = 0 := (Int.emod_two_eq_zero_or_one _).resolve_right fun hodd => h (.inr ⟨hhalf, hodd⟩)
    simp [hhalf, heven]
  · exact absurd (.inl habove) h

/-! ### The machine's division -/

/-- The integer rounding of a fraction is the rule's rounding of its value. -/
theorem Ratio.round_eq_roundExact (v : Ratio) (m : Rounding) (h : 0 < v.den) :
    (v.round m : ℤ) = roundExact m ((v.num : ℚ) / v.den) := by
  have hd : (0 : ℚ) < v.den := by exact_mod_cast h
  have hfloor : ⌊(v.num : ℚ) / v.den⌋ = (v.num / v.den : ℕ) := Rat.floor_natCast_div_natCast _ _
  cases m with
  | towardZero => exact hfloor.symm
  | nearestEven =>
    have hrest : (v.num : ℚ) / v.den - (v.num / v.den : ℕ) = (v.num % v.den : ℕ) / v.den := by
      rw [eq_div_iff hd.ne', sub_mul, div_mul_cancel₀ _ hd.ne', sub_eq_iff_eq_add]
      exact_mod_cast (Nat.mod_add_div' v.num v.den).symm
    have hbelow : ((v.num % v.den : ℕ) / v.den : ℚ) < 1 / 2 ↔ 2 * (v.num % v.den) < v.den := by
      rw [div_lt_div_iff₀ hd two_pos, one_mul, mul_comm]
      exact_mod_cast Iff.rfl
    have habove : 1 / 2 < ((v.num % v.den : ℕ) / v.den : ℚ) ↔ v.den < 2 * (v.num % v.den) := by
      rw [div_lt_div_iff₀ two_pos hd, one_mul, mul_comm]
      exact_mod_cast Iff.rfl
    have heven : ((v.num / v.den : ℕ) : ℤ) % 2 = 0 ↔ v.num / v.den % 2 = 0 := by omega
    simp only [roundExact, hfloor, Int.cast_natCast, hrest, hbelow, habove, heven, Ratio.round]
    simp only [Nat.cast_ite, Nat.cast_add, Nat.cast_one]

/-! ### Guard, round and sticky -/

theorem Acc.guardBit_iff (acc : Acc) : acc.guardBit = true ↔ 2 ≤ acc.bits % 4 := by
  simp only [Acc.guardBit, Nat.testBit_eq_decide_div_mod_eq, decide_eq_true_eq]
  omega

theorem Acc.roundBit_iff (acc : Acc) : acc.roundBit = true ↔ acc.bits % 2 = 1 := by
  simp [Acc.roundBit]

/-- An accumulator holds a value: the whole quarters in its bits, and in its sticky bit whether there is more. -/
def Acc.Holds (acc : Acc) (v : ℚ) : Prop := (acc.bits : ℤ) = ⌊4 * v⌋ ∧ (acc.sticky = true ↔ (⌊4 * v⌋ : ℚ) ≠ 4 * v)

variable {acc : Acc} {v : ℚ}

/-- The retained bits are the whole part. -/
theorem Acc.Holds.floor_eq (h : acc.Holds v) : ⌊v⌋ = acc.retained := by
  obtain ⟨hbits, -⟩ := h
  have hv : v = 4 * v / (4 : ℕ) := by push_cast; ring
  rw [hv, Int.floor_div_natCast, ← hbits]
  rfl

/-- The part above the floor, in quarters: the two dropped bits, and a rest below them that the sticky bit marks. -/
theorem Acc.Holds.exists_rest (h : acc.Holds v) :
    ∃ t : ℚ, 4 * (v - ⌊v⌋) = (acc.bits % 4 : ℕ) + t ∧ 0 ≤ t ∧ t < 1 ∧ (acc.sticky = true ↔ 0 < t) := by
  have hfloor := h.floor_eq
  obtain ⟨hbits, hsticky⟩ := h
  have hsplit : ((acc.bits % 4 : ℕ) : ℚ) + 4 * (acc.retained : ℕ) = (acc.bits : ℕ) := by
    exact_mod_cast Nat.mod_add_div acc.bits 4
  refine ⟨Int.fract (4 * v), ?_, Int.fract_nonneg _, Int.fract_lt_one _, ?_⟩
  · rw [Int.fract, hfloor, ← hbits, Int.cast_natCast, Int.cast_natCast]
    linarith
  · rw [hsticky, Int.fract_pos, ne_comm]

/-- RNE goes up exactly when `G and (R or S or L)` (R166). -/
theorem Acc.Holds.roundsUp_iff (h : acc.Holds v) : RoundsUp v ↔
    (acc.guardBit && (acc.roundBit || acc.sticky || acc.retained.testBit 0)) = true := by
  obtain ⟨t, hpart, ht0, ht1, hsticky⟩ := h.exists_rest
  have hodd : ⌊v⌋ % 2 = 1 ↔ acc.retained.testBit 0 = true := by
    rw [h.floor_eq, Nat.testBit_zero, decide_eq_true_eq]
    omega
  simp only [RoundsUp, hodd, Bool.and_eq_true, Bool.or_eq_true, Acc.guardBit_iff, Acc.roundBit_iff, hsticky]
  obtain hd | hd | hd := lt_trichotomy (acc.bits % 4) 2
  · have hcast : ((acc.bits % 4 : ℕ) : ℚ) ≤ 1 := by exact_mod_cast Nat.le_of_lt_succ hd
    have hbelow : v - ⌊v⌋ < 1 / 2 := by linarith
    simp only [hbelow.not_gt, hbelow.ne, hd.not_ge, false_and, or_false]
  · have hpart2 : 4 * (v - ⌊v⌋) = 2 + t := by rw [hpart, hd, Nat.cast_ofNat]
    have hround : ¬acc.bits % 2 = 1 := by omega
    obtain rfl | hrest := ht0.eq_or_lt
    · have hhalf : v - ⌊v⌋ = 1 / 2 := by linarith
      simp [hhalf, hd, hround]
    · have habove : 1 / 2 < v - ⌊v⌋ := by linarith
      simp only [habove, hrest, hd, le_refl, true_or, or_true, and_self]
  · have hcast : (3 : ℚ) ≤ (acc.bits % 4 : ℕ) := by exact_mod_cast hd
    have habove : 1 / 2 < v - ⌊v⌋ := by linarith
    have hround : acc.bits % 2 = 1 := by omega
    simp only [habove, hround, hd.le, true_or, and_self]

/-- Rounding by guard, round and sticky bits is the rule's rounding of the value that the accumulator holds. -/
theorem Acc.Holds.rounded_eq_roundExact (h : acc.Holds v) (m : Rounding) : (acc.rounded m : ℤ) = roundExact m v := by
  cases m with
  | towardZero => exact h.floor_eq.symm
  | nearestEven =>
    by_cases hup : RoundsUp v
    · rw [roundExact_of_roundsUp hup, h.floor_eq, Acc.rounded, if_pos (h.roundsUp_iff.mp hup), Nat.cast_add_one]
    · rw [roundExact_of_not_roundsUp hup, h.floor_eq, Acc.rounded, if_neg (mt h.roundsUp_iff.mpr hup)]

/-- Settles O34: the division's remainder, and the accumulator's dropped bits, tell on which side of one half a value
lies. -/
theorem roundingFollowsTheRule : Obligations.RoundingFollowsTheRule :=
  ⟨fun v m h => v.round_eq_roundExact m h,
    fun _ acc m _ hbits hsticky => Acc.Holds.rounded_eq_roundExact (acc := acc) ⟨hbits, hsticky⟩ m⟩

end Sys2Proof.Machine
end

section
/-! PROOF. Packing (42_float_common.md R167, R170). A magnitude scaled for its exponent rounds to a significand from 2^23
to 2^24, the upper bound standing for a carry; below the normal range, at subnormal precision, it rounds to at most
2^23. Within these bounds the fields of the pattern are what the rule says. -/

namespace Sys2Proof.Machine

/-! ### What is rounded -/

theorem zpow_add_le_mul_zpow {q : ℚ} {e : ℤ} (h : (2 : ℚ) ^ e ≤ q) (k : ℤ) : (2 : ℚ) ^ (e + k) ≤ q * (2 : ℚ) ^ k := by
  rw [zpow_add₀ two_ne_zero]
  gcongr

theorem mul_zpow_lt_zpow_add {q : ℚ} {e : ℤ} (h : q < (2 : ℚ) ^ e) (k : ℤ) : q * (2 : ℚ) ^ k < (2 : ℚ) ^ (e + k) := by
  rw [zpow_add₀ two_ne_zero]
  gcongr

variable {v : Ratio}

/-- A scaled magnitude rounds as the rule rounds its value. -/
theorem Ratio.scale_round (hd : 0 < v.den) (k : ℤ) (m : Rounding) :
    ((v.scale k).round m : ℤ) = roundExact m ((v.num : ℚ) / v.den * (2 : ℚ) ^ k) := by
  rw [Ratio.round_eq_roundExact _ _ (v.scale_den_pos k hd), Ratio.scale_value]

/-- Scaled for its exponent, a magnitude has a 24-bit significand, which rounding may carry to 2^24. -/
theorem Ratio.significand_bounds (hn : 0 < v.num) (hd : 0 < v.den) (m : Rounding) :
    2 ^ 23 ≤ (v.scale (23 - v.floorLog2)).round m ∧ (v.scale (23 - v.floorLog2)).round m ≤ 2 ^ 24 := by
  obtain ⟨hlow, hhigh⟩ := v.floorLog2_spec hn hd
  have hlow' := zpow_add_le_mul_zpow hlow (23 - v.floorLog2)
  have hhigh' := mul_zpow_lt_zpow_add hhigh (23 - v.floorLog2)
  rw [show v.floorLog2 + (23 - v.floorLog2) = 23 by ring] at hlow'
  rw [show v.floorLog2 + 1 + (23 - v.floorLog2) = 24 by ring] at hhigh'
  zify
  rw [v.scale_round hd]
  exact ⟨le_roundExact m (by exact_mod_cast hlow'), roundExact_le m (by exact_mod_cast hhigh')⟩

/-- Below the normal range a magnitude rounds at subnormal precision to at most the smallest normal. -/
theorem Ratio.subnormal_significand_le (hn : 0 < v.num) (hd : 0 < v.den) (he : v.floorLog2 < -126) (m : Rounding) :
    (v.scale 149).round m ≤ 2 ^ 23 := by
  obtain ⟨-, hhigh⟩ := v.floorLog2_spec hn hd
  have hbound : (v.num : ℚ) / v.den * (2 : ℚ) ^ (149 : ℤ) < 2 ^ (23 : ℤ) :=
    calc _ < (2 : ℚ) ^ (v.floorLog2 + 1 + 149) := mul_zpow_lt_zpow_add hhigh 149
      _ ≤ 2 ^ (23 : ℤ) := zpow_le_zpow_right₀ one_le_two (by omega)
  zify
  rw [v.scale_round hd]
  exact roundExact_le m (by exact_mod_cast hbound)

/-! ### The pattern -/

/-- The pattern at subnormal precision, read as a number. -/
theorem packSubnormal_toNat (s : Bool) {M : Nat} (h : M < 2 ^ 31) :
    (packSubnormal s M).toNat = (if s then 2 ^ 31 else 0) + M := by
  rw [packSubnormal, BitVec.toNat_append, BitVec.toNat_ofNat, Nat.mod_eq_of_lt h, Nat.shiftLeft_eq, Nat.mul_comm,
    ← Nat.two_pow_add_eq_or_of_lt h]
  cases s <;> rfl

/-- A significand that rounding carried to 2^24 is packed as 2^23 at the next exponent. -/
theorem packRounded_carry (s : Bool) (e : Int) : packRounded s (2 ^ 24) e = packRounded s (2 ^ 23) (e + 1) := rfl

/-- Without a carry the end of packing is the rule's. -/
theorem packedAs_packRounded (s : Bool) {M : Nat} (e : Int) (hlow : 2 ^ 23 ≤ M) (hhigh : M < 2 ^ 24) :
    PackedAs s M e (packRounded s M e) := by
  have hcarry : (M == 2 ^ 24) = false := beq_false_of_ne hhigh.ne
  simp only [PackedAs, packRounded, hcarry, Bool.false_eq_true, if_false]
  split_ifs with hover hunder
  · rfl
  · rfl
  · have hexp : (BitVec.ofInt 8 (e + 127)).toNat = e + 127 := by
      rw [BitVec.toNat_ofInt]
      omega
    have hfrac : (BitVec.ofNat 23 (M - 2 ^ 23)).toNat = M - 2 ^ 23 := by
      rw [BitVec.toNat_ofNat]
      omega
    rw [sgn_ofFields, expf_ofFields, frac_ofFields, hexp, hfrac, Nat.cast_sub hlow]
    exact ⟨rfl, rfl, rfl⟩

/-- Settles O35: `floorLog2` is the rule's exponent, and its two cases are those of `roundPack`. -/
theorem packingFollowsTheRule : Obligations.PackingFollowsTheRule := by
  intro uf m s v hn hd
  obtain ⟨hlow, hhigh⟩ := v.floorLog2_spec hn hd
  refine ⟨v.floorLog2, hlow, hhigh, ?_⟩
  obtain ⟨he, hgradual, hz⟩ | ⟨hcase, hz⟩ := roundPack_cases uf m s v
  · have hM := v.subnormal_significand_le hn hd he m
    rw [if_pos ⟨hgradual, he⟩, hz, packSubnormal_toNat s (by omega), ← v.scale_round hd]
    push_cast
    rfl
  · obtain ⟨hM0, hM1⟩ := v.significand_bounds hn hd m
    rw [if_neg (mt And.symm hcase), hz, ← v.scale_round hd]
    generalize (v.scale (23 - v.floorLog2)).round m = M at hM0 hM1
    obtain rfl | hlt := hM1.eq_or_lt
    · rw [if_pos (by norm_num), packRounded_carry]
      exact packedAs_packRounded s _ le_rfl (by decide)
    · rw [if_neg (by exact_mod_cast hlt.ne)]
      exact packedAs_packRounded s _ hM0 hlt

end Sys2Proof.Machine
end

section
/-! PROOF. The quiet NaN (42_float_common.md R172). Packing gives no NaN, so a NaN that FADD, FSUB, FMUL or FDIV gives is
the one that the operation was handed, and that is the `QNAN` of the request. -/

namespace Sys2Proof.Machine

/-- Bit 22 is the leading bit of the significand field. -/
theorem frac_getLsbD_22 (x : B32) : (frac x).getLsbD 22 = x.getLsbD 22 := by simp [frac]

theorem expf_qnan (cmd : Cmd) (a b : B32) : expf (qnan cmd a b) = 0xFF#8 := expf_ofFields _ _ _

theorem qnan_getLsbD_22 (cmd : Cmd) (a b : B32) : (qnan cmd a b).getLsbD 22 = true := by
  rw [← frac_getLsbD_22, qnan, frac_ofFields, BitVec.getLsbD_append]
  rfl

theorem isQuietNaN_qnan (cmd : Cmd) (a b : B32) : isQuietNaN (qnan cmd a b) = true :=
  (isQuietNaN_of_isNaN (isNaN_qnan cmd a b)).trans (qnan_getLsbD_22 cmd a b)

/-! ### Packing gives no NaN -/

theorem expf_toNat (x : B32) : (expf x).toNat = x.toNat / 2 ^ 23 % 2 ^ 8 := by
  rw [expf, BitVec.extractLsb'_toNat, Nat.shiftRight_eq_div_pow]

theorem isNaN_packSubnormal (s : Bool) {M : Nat} (h : M ≤ 2 ^ 23) : isNaN (packSubnormal s M) = false := by
  apply isNaN_of_expf
  rw [← BitVec.toNat_ne_iff_ne, expf_toNat, packSubnormal_toNat s (by omega), BitVec.toNat_ofNat]
  split <;> omega

theorem isNaN_packRounded (s : Bool) (M : Nat) (e : Int) : isNaN (packRounded s M e) = false := by
  obtain hz | hz | ⟨E, h1, h254, f, hz⟩ := packRounded_cases s M e
  · rw [hz, isNaN_signedInf]
  · rw [hz, isNaN_signedZero]
  · apply isNaN_of_expf
    rw [hz, expf_ofFields, ← BitVec.toNat_ne_iff_ne, BitVec.toNat_ofInt, BitVec.toNat_ofNat]
    omega

theorem isNaN_roundPack (uf : Underflow) (m : Rounding) (s : Bool) {v : Ratio} (hn : 0 < v.num) (hd : 0 < v.den) :
    isNaN (roundPack uf m s v) = false := by
  obtain ⟨he, -, hz⟩ | ⟨-, hz⟩ := roundPack_cases uf m s v
  · rw [hz, isNaN_packSubnormal s (v.subnormal_significand_le hn hd he m)]
  · rw [hz, isNaN_packRounded]

/-! ### A NaN result is the one handed to the operation -/

/-- A pattern that is no NaN, no infinity and no zero counts at least one unit. -/
theorem unitsAbs_pos_of_not {x : B32} (hn : ¬isNaN x = true) (hi : ¬isInf x = true) (hz : ¬isZero x = true) :
    0 < unitsAbs x :=
  unitsAbs_pos x (by simp [isFinite, hn, hi]) (eq_false_of_ne_true hz)

/-- `z` is a NaN only by being `nan`. -/
def NaNOnlyAs (nan z : B32) : Prop := isNaN z = true → z = nan

theorem NaNOnlyAs.refl (nan : B32) : NaNOnlyAs nan nan := fun _ => rfl

theorem NaNOnlyAs.of_not_nan {nan z : B32} (h : isNaN z = false) : NaNOnlyAs nan z := fun hz => by simp [h] at hz

theorem nanOnlyAs_addBody (uf : Underflow) (nan : B32) {a b : B32} (ha : isNaN a = false) (hb : isNaN b = false) :
    NaNOnlyAs nan (addBody uf nan a b) := by
  simp only [addBody]
  split_ifs with hinf hia hib hzero hza hzb hsum
  · exact .refl nan
  · exact .of_not_nan ha
  · exact .of_not_nan hb
  · exact .of_not_nan (isNaN_signedZero _)
  · exact .of_not_nan hb
  · exact .of_not_nan ha
  · exact .of_not_nan (isNaN_signedZero _)
  · exact .of_not_nan (isNaN_roundPack _ _ _ (Int.natAbs_pos.mpr hsum) (by simp [Ratio.ofUnits]))

theorem nanOnlyAs_floatAdd (uf : Underflow) (nan a b : B32) : NaNOnlyAs nan (floatAdd uf nan a b) := by
  unfold floatAdd
  split_ifs with h
  · exact .refl nan
  · obtain ⟨ha, hb⟩ := not_or.mp h
    exact nanOnlyAs_addBody uf nan (eq_false_of_ne_true ha) (eq_false_of_ne_true hb)

theorem nanOnlyAs_floatSub (uf : Underflow) (nan a b : B32) : NaNOnlyAs nan (floatSub uf nan a b) := by
  unfold floatSub
  split_ifs with h
  · exact .refl nan
  · obtain ⟨ha, hb⟩ := not_or.mp h
    exact nanOnlyAs_addBody uf nan (eq_false_of_ne_true ha) ((isNaN_floatNeg b).trans (eq_false_of_ne_true hb))

theorem nanOnlyAs_floatMul (uf : Underflow) (nan a b : B32) : NaNOnlyAs nan (floatMul uf nan a b) := by
  simp only [floatMul]
  split_ifs with hnan hinv hinf hzero
  · exact .refl nan
  · exact .refl nan
  · exact .of_not_nan (isNaN_signedInf _)
  · exact .of_not_nan (isNaN_signedZero _)
  · obtain ⟨hna, hnb⟩ := not_or.mp hnan
    obtain ⟨hia, hib⟩ := not_or.mp hinf
    obtain ⟨hza, hzb⟩ := not_or.mp hzero
    exact .of_not_nan (isNaN_roundPack _ _ _
      (Nat.mul_pos (unitsAbs_pos_of_not hna hia hza) (unitsAbs_pos_of_not hnb hib hzb)) (by simp))

theorem nanOnlyAs_floatDiv (uf : Underflow) (m : Rounding) (nan a b : B32) :
    NaNOnlyAs nan (floatDiv uf m nan a b) := by
  simp only [floatDiv]
  split_ifs with hnan hinf hia hib hzero hzb hza
  · exact .refl nan
  · exact .refl nan
  · exact .of_not_nan (isNaN_signedInf _)
  · exact .of_not_nan (isNaN_signedZero _)
  · exact .refl nan
  · exact .of_not_nan (isNaN_signedInf _)
  · exact .of_not_nan (isNaN_signedZero _)
  · obtain ⟨hna, hnb⟩ := not_or.mp hnan
    exact .of_not_nan (isNaN_roundPack _ _ _ (unitsAbs_pos_of_not hna hia hza) (unitsAbs_pos_of_not hnb hib hzb))

/-- The results of a response are determined by the state that it leaves. -/
theorem State.respond_inj {s : State} {p q r0 r1 : Port} : s.respond p q = s.respond r0 r1 ↔ p = r0 ∧ q = r1 := by
  simp [State.respond]

/-- Where a two-operand operation's NaN is only the one handed to it, a NaN on its response is quiet. -/
theorem isQuietNaN_of_completeFloat {i : Instr} {op : B32 → B32 → B32 → B32} {s : State} {r0 r1 : Port}
    (hop : ∀ nan a b, NaNOnlyAs nan (op nan a b)) (h : completeFloat i op s = .next (s.respond r0 r1))
    (hnan : isNaN (lowBits 32 r0) = true) : isQuietNaN (lowBits 32 r0) = true := by
  rw [completeFloat_spec, Host.Outcome.next.injEq, State.respond_inj] at h
  obtain ⟨rfl, rfl⟩ := h
  rw [lowBits_toPort _ (by decide)] at hnan ⊢
  rw [hop _ _ _ hnan]
  exact isQuietNaN_qnan _ _ _

/-- Settles O39: packing gives no NaN, so each of the four operations gives only the quiet one it was handed. -/
theorem arithmeticNaNResultsAreQuiet : Obligations.ArithmeticNaNResultsAreQuiet := by
  refine ⟨fun cmd a b => ⟨expf_qnan cmd a b, qnan_getLsbD_22 cmd a b, isQuietNaN_qnan cmd a b⟩,
    fun i s r0 r1 hi h hnan => ?_⟩
  fin_cases hi
  · exact isQuietNaN_of_completeFloat (nanOnlyAs_floatAdd _) h hnan
  · exact isQuietNaN_of_completeFloat (nanOnlyAs_floatSub _) h hnan
  · exact isQuietNaN_of_completeFloat (nanOnlyAs_floatMul _) h hnan
  · exact isQuietNaN_of_completeFloat (nanOnlyAs_floatDiv _ _) h hnan

end Sys2Proof.Machine
end

section
/-! PROOF. Negation and comparison (43_float_arith.md R207, R210, R211). `Extended.lt` is a strict linear order, and two
patterns' points lie in it as the patterns' values do, so FCMP's three tests ask for the three relations of the rule. -/

namespace Sys2Proof.Machine

/-! ### Negation -/

/-- The low 32 bits of a port, zero-filled, are the port under their mask. -/
theorem toPort_lowBits_32 (p : Port) : toPort (lowBits 32 p) = p &&& 0xFFFFFFFF#64 := by
  apply BitVec.eq_of_toNat_eq
  rw [toPort_toNat _ (by decide), lowBits_toNat, BitVec.toNat_and]
  exact (Nat.and_two_pow_sub_one_eq_mod _ 32).symm

theorem toPort_xor {W : Nat} (v w : BitVec W) : toPort (v ^^^ w) = toPort v ^^^ toPort w := BitVec.setWidth_xor

/-- Settles O46: the negated operand, zero-filled, is the masked port with its bit 31 flipped. -/
theorem negateFlipsTheSign : Obligations.NegateFlipsTheSign := by
  refine ⟨rfl, fun s => (responds_iff_results _ _ _ _).mpr ⟨?_, rfl⟩⟩
  rw [← toPort_lowBits_32]
  exact (toPort_xor _ 0x80000000#32).symm

/-! ### The order of the extended reals -/

theorem Extended.lt_irrefl (x : Extended) : x.lt x = false := by
  cases x <;> simp [Extended.lt]

theorem Extended.lt_asymm {x y : Extended} (h : x.lt y = true) : y.lt x = false := by
  cases x <;> cases y <;> simp_all [Extended.lt, Int.le_of_lt]

theorem Extended.lt_trichotomy (x y : Extended) : x.lt y = true ∨ x = y ∨ y.lt x = true := by
  cases x <;> cases y <;> simp [Extended.lt, Int.lt_trichotomy]

/-- The order in the shape of the rule: from −∞ up, up to +∞, or between finite values. -/
theorem Extended.lt_iff (x y : Extended) : x.lt y = true ↔
    (x = .negInf ∧ y ≠ .negInf) ∨ (y = .posInf ∧ x ≠ .posInf) ∨ ∃ u v, x = .finite u ∧ y = .finite v ∧ u < v := by
  cases x <;> cases y <;> simp [Extended.lt]

/-- Equality in the same shape. -/
theorem Extended.eq_iff (x y : Extended) : x = y ↔
    (x = .negInf ∧ y = .negInf) ∨ (x = .posInf ∧ y = .posInf) ∨ ∃ u v, x = .finite u ∧ y = .finite v ∧ u = v := by
  cases x <;> cases y <;> simp [eq_comm]

/-! ### The point of a pattern -/

theorem extended_eq_negInf_iff (x : B32) : extended x = .negInf ↔ isInf x = true ∧ sgn x = true := by
  unfold extended
  split_ifs <;> simp [*]

theorem extended_eq_posInf_iff (x : B32) : extended x = .posInf ↔ isInf x = true ∧ sgn x = false := by
  unfold extended
  split_ifs <;> simp [*]

theorem extended_eq_finite_iff {x : B32} (h : isNaN x = false) (u : Int) :
    extended x = .finite u ↔ isFinite x = true ∧ units x = u := by
  unfold extended
  split_ifs <;> simp [isFinite, *]

theorem units_lt_units_iff (a b : B32) : units a < units b ↔ val a < val b := by
  rw [val_eq_units, val_eq_units, mul_lt_mul_iff_left₀ (by positivity), Int.cast_lt]

theorem units_eq_units_iff (a b : B32) : units a = units b ↔ val a = val b := by
  rw [val_eq_units, val_eq_units, mul_left_inj' (by positivity), Int.cast_inj]

variable {a b : B32}

theorem extended_lt_iff_precedes (h : Ordered a b) : (extended a).lt (extended b) = true ↔ Precedes a b := by
  obtain ⟨ha, hb⟩ := h
  simp [Extended.lt_iff, extended_eq_negInf_iff, extended_eq_posInf_iff, extended_eq_finite_iff ha,
    extended_eq_finite_iff hb, units_lt_units_iff, Precedes, and_assoc]

theorem extended_eq_iff_sameValue (h : Ordered a b) : extended a = extended b ↔ SameValue a b := by
  obtain ⟨ha, hb⟩ := h
  rw [Extended.eq_iff]
  cases hsa : sgn a <;> cases hsb : sgn b <;>
    simp [extended_eq_negInf_iff, extended_eq_posInf_iff, extended_eq_finite_iff ha, extended_eq_finite_iff hb,
      units_eq_units_iff, SameValue, hsa, hsb, and_assoc, eq_comm (a := val b)]

theorem Ordered.symm (h : Ordered a b) : Ordered b a := And.symm h

/-- Of two ordered patterns one precedes the other or they have the same value (R211). -/
theorem Ordered.trichotomy (h : Ordered a b) : Precedes a b ∨ SameValue a b ∨ Precedes b a := by
  rw [← extended_lt_iff_precedes h, ← extended_eq_iff_sameValue h, ← extended_lt_iff_precedes h.symm]
  exact Extended.lt_trichotomy _ _

/-! ### The outcome of FCMP -/

theorem floatCompare_of_not_ordered (h : ¬Ordered a b) : floatCompare a b = .unordered := by
  refine if_pos ?_
  rwa [Ordered, not_and_or, Bool.not_eq_false, Bool.not_eq_false] at h

/-- Without a NaN, FCMP compares the points of its operands. -/
theorem floatCompare_of_ordered (h : Ordered a b) : floatCompare a b =
    if (extended a).lt (extended b) then .less else if extended a = extended b then .equal else .greater :=
  if_neg (by simp [h.1, h.2])

theorem floatCompare_of_precedes (h : Ordered a b) (hlt : Precedes a b) : floatCompare a b = .less := by
  rw [floatCompare_of_ordered h, if_pos ((extended_lt_iff_precedes h).mpr hlt)]

theorem floatCompare_of_sameValue (h : Ordered a b) (heq : SameValue a b) : floatCompare a b = .equal := by
  have hpoint : extended a = extended b := (extended_eq_iff_sameValue h).mpr heq
  rw [floatCompare_of_ordered h, hpoint, Extended.lt_irrefl, if_neg Bool.false_ne_true, if_pos rfl]

theorem floatCompare_of_follows (h : Ordered a b) (hgt : Precedes b a) : floatCompare a b = .greater := by
  have hlt : (extended b).lt (extended a) = true := (extended_lt_iff_precedes h.symm).mpr hgt
  have hne : extended a ≠ extended b := fun heq => by simp [heq, Extended.lt_irrefl] at hlt
  rw [floatCompare_of_ordered h, Extended.lt_asymm hlt, if_neg Bool.false_ne_true, if_neg hne]

/-- Settles O47: the code of FCMP's outcome, one clause for each relation of the operands. -/
theorem compareOrdersByValue : Obligations.CompareOrdersByValue := by
  refine ⟨rfl, fun s => ⟨(floatCompare (lowBits 32 s.a) (lowBits 32 s.b)).code,
    (responds_iff_results _ _ _ _).mpr ⟨rfl, rfl⟩, fun h => ?_, fun h => ⟨fun hlt => ?_, fun heq => ?_, fun hgt => ?_,
      h.trichotomy⟩⟩⟩
  · rw [floatCompare_of_not_ordered h, Comparison.code]
  · rw [floatCompare_of_precedes h hlt, Comparison.code]
  · rw [floatCompare_of_sameValue h heq, Comparison.code]
  · rw [floatCompare_of_follows h hgt, Comparison.code]

end Sys2Proof.Machine
end

section
/-! PROOF. Integers to binary32 (44_conversions.md R230 to R232). A nonzero magnitude is the fraction with denominator 1
whose packing is the rule's, and the signed conversion takes the sign and the absolute value of its operand. -/

namespace Sys2Proof.Machine

@[simp] theorem intToFloat_zero (uf : Underflow) (s : Bool) : intToFloat uf s 0 = 0x00000000#32 := rfl

/-- A nonzero magnitude is rounded to nearest even and packed with the given sign. -/
theorem roundPacked_intToFloat (uf : Underflow) (s : Bool) {m : Nat} (hm : m ≠ 0) :
    RoundPacked uf .nearestEven s m (intToFloat uf s m) := by
  have hpack := packingFollowsTheRule uf .nearestEven s { num := m, den := 1 } (Nat.pos_of_ne_zero hm) Nat.one_pos
  rw [Nat.cast_one, div_one] at hpack
  rwa [intToFloat, if_neg hm]

/-- ITOF.U32 completes with its operand converted with sign 0 (R231). -/
theorem responds_itofU32 (s : State) :
    Responds .itofU32 s (toPort (intToFloat Config.underflow false (lowBits 32 s.a).toNat)) 0#64 :=
  (responds_iff_results .itofU32 s _ _).mpr ⟨rfl, rfl⟩

/-- ITOF.S32 converts the sign and the absolute value of its operand, the minimum value included (R232). -/
theorem responds_itofS32 (s : State) :
    Responds .itofS32 s (toPort (intToFloat Config.underflow (decide ((lowBits 32 s.a).toInt < 0))
      (lowBits 32 s.a).toInt.natAbs)) 0#64 := by
  rw [← magnitude_toNat, ← BitVec.msb_eq_toInt]
  exact (responds_iff_results .itofS32 s _ _).mpr ⟨rfl, rfl⟩

/-- Settles O49: each ITOF hands the sign and the magnitude of its integer to the one conversion. -/
theorem integersRoundToFloats : Obligations.IntegersRoundToFloats := by
  refine ⟨by decide, by decide, fun s => ⟨⟨_, responds_itofU32 s, ?_⟩, ⟨_, responds_itofS32 s, ?_⟩⟩⟩
  · split_ifs with hzero
    · rw [hzero, intToFloat_zero]
    · exact roundPacked_intToFloat _ _ hzero
  · split_ifs with hzero
    · rw [hzero, Int.natAbs_zero, intToFloat_zero]
    · rw [← Int.cast_abs, ← Nat.cast_natAbs]
      exact roundPacked_intToFloat _ _ (Int.natAbs_ne_zero.mpr hzero)

end Sys2Proof.Machine
end

section
/-! PROOF. The decoder and the encoder as inverses (30_encoding.md R60, R62 to R65). A command's fields are read back from
the word put together of them, so the decoder runs on the fields of an encoded operation. The reserved space is what
each part of the decoder rejects, and the legal commands are the commands of the well-formed operations. -/

namespace Sys2Proof

/-! ### The fields of a command put together from them -/

section Fields

variable (func : BitVec 4) (wc : BitVec 2) (sg : Bool) (f : BitVec 6)

/-- The bits of a command, by the field that each falls in. -/
theorem getLsbD_cmdWord (k : Nat) : (cmdWord func wc sg f).getLsbD k =
    if k < 4 then func.getLsbD k else if k < 6 then wc.getLsbD (k - 4)
    else if k = 6 then sg else if k = 7 then false else f.getLsbD (k - 8) := by
  simp only [cmdWord, BitVec.getLsbD_append, BitVec.getLsbD_ofBool, BitVec.getLsbD_zero]
  grind

/-- A slice of a command is what its bits are. -/
theorem extractLsb'_cmdWord {lo len : Nat} {v : BitVec len}
    (h : ∀ k < len, (cmdWord func wc sg f).getLsbD (lo + k) = v.getLsbD k) :
    (cmdWord func wc sg f).extractLsb' lo len = v := by
  apply BitVec.eq_of_getLsbD_eq
  intro k hk
  simp only [BitVec.getLsbD_extractLsb', hk, decide_true, Bool.true_and, h k hk]

@[simp] theorem cmdFunc_cmdWord : cmdFunc (cmdWord func wc sg f) = func :=
  extractLsb'_cmdWord _ _ _ _ fun k hk => by grind [getLsbD_cmdWord]

@[simp] theorem cmdWc_cmdWord : cmdWc (cmdWord func wc sg f) = wc :=
  extractLsb'_cmdWord _ _ _ _ fun k hk => by grind [getLsbD_cmdWord]

@[simp] theorem cmdSg_cmdWord : cmdSg (cmdWord func wc sg f) = sg := getLsbD_cmdWord _ _ _ _ 6

@[simp] theorem cmdRsv0_cmdWord : cmdRsv0 (cmdWord func wc sg f) = false := getLsbD_cmdWord _ _ _ _ 7

@[simp] theorem cmdF_cmdWord : cmdF (cmdWord func wc sg f) = f :=
  extractLsb'_cmdWord _ _ _ _ fun k hk => by grind [getLsbD_cmdWord]

@[simp] theorem cmdRsv1_cmdWord : cmdRsv1 (cmdWord func wc sg f) = 0#2 :=
  extractLsb'_cmdWord _ _ _ _ fun k hk => by grind [getLsbD_cmdWord]

end Fields

/-! ### Decoding an encoded operation -/

/-- The fields of a shifted multiply's command are read back; any other command is a constant. -/
theorem decode_encode : ∀ i : Instr, WellFormed i = true → decode (encode i) = .ok i
  | .mulq8 f, h | .mulq16 f, h | .mulq32 f, h => by
    simp [encode, decode, decodeShifted, selectWidth, h]
  | .divu8, _ | .divu16, _ | .divu32, _ | .divu64, _ | .divs8, _ | .divs16, _ | .divs32, _ | .divs64, _
  | .mul8, _ | .mul16, _ | .mul32, _ | .mull8, _ | .mull16, _ | .mull32, _ | .mulh8, _ | .mulh16, _ | .mulh32, _
  | .fadd, _ | .fsub, _ | .fmul, _ | .fdiv, _ | .fneg, _ | .fcmp, _
  | .itofU32, _ | .itofS32, _ | .ftoiU32, _ | .ftoiS32, _ => rfl

/-- Settles O1: the decoder runs on the fields that the encoder put in. -/
theorem decodeOfEncode : Obligations.DecodeOfEncode := decode_encode

/-- Settles O2: what decodes is well formed and spelled by the fields of its command. -/
theorem encodeOfDecode : Obligations.EncodeOfDecode :=
  fun _ _ h => ⟨wellFormed_of_decode h, encode_of_decode h⟩

/-- Settles O5: each of the ten commands decoded. -/
theorem sampleCommandsDecode : Obligations.SampleCommandsDecode := by
  refine ⟨?_, ?_, ?_, ?_, ?_, ?_, ?_, ?_, ?_, ?_⟩ <;> rfl

/-! ### The legal commands -/

theorem isLegal_iff_exists_decode {cmd : Cmd} : isLegal cmd = true ↔ ∃ i, decode cmd = .ok i := by
  unfold isLegal
  rcases decode cmd with r | i <;> simp

/-- The legal commands are the commands of the well-formed operations. -/
theorem isLegal_iff_exists_encode {cmd : Cmd} : isLegal cmd = true ↔ ∃ i, WellFormed i = true ∧ encode i = cmd := by
  rw [isLegal_iff_exists_decode]
  constructor
  · rintro ⟨i, h⟩
    exact ⟨i, wellFormed_of_decode h, encode_of_decode h⟩
  · rintro ⟨i, hwf, rfl⟩
    exact ⟨i, decode_encode i hwf⟩

/-- Two well-formed operations have different commands. -/
theorem encode_injOn : Set.InjOn encode {i | WellFormed i = true} := by
  intro i hi j hj h
  have hd := decode_encode i hi
  rw [h, decode_encode j hj] at hd
  exact (Except.ok.inj hd).symm

/-- The operations that carry no fraction width. -/
def fixedInstrs : List Instr :=
  [.divu8, .divu16, .divu32, .divu64, .divs8, .divs16, .divs32, .divs64,
   .mul8, .mul16, .mul32, .mull8, .mull16, .mull32, .mulh8, .mulh16, .mulh32,
   .fadd, .fsub, .fmul, .fdiv, .fneg, .fcmp, .itofU32, .itofS32, .ftoiU32, .ftoiS32]

/-- The fraction widths below a bound. -/
def fractionsBelow (n : Nat) : List (BitVec 6) := (List.range n).map (BitVec.ofNat 6)

/-- Every well-formed operation, once. -/
def wellFormedInstrs : List Instr :=
  fixedInstrs ++ (fractionsBelow 16).map .mulq8 ++ (fractionsBelow 32).map .mulq16 ++ (fractionsBelow 64).map .mulq32

theorem mem_fractionsBelow {n : Nat} (hn : n ≤ 64) (f : BitVec 6) : f ∈ fractionsBelow n ↔ f.toNat < n := by
  simp only [fractionsBelow, List.mem_map, List.mem_range]
  constructor
  · rintro ⟨k, hk, rfl⟩
    rw [BitVec.toNat_ofNat]
    omega
  · exact fun h => ⟨f.toNat, h, by simp⟩

theorem mem_wellFormedInstrs (i : Instr) : i ∈ wellFormedInstrs ↔ WellFormed i = true := by
  cases i <;> simp [wellFormedInstrs, fixedInstrs, mem_fractionsBelow, WellFormed]
  next f => exact f.isLt

theorem fractionsBelow_nodup {n : Nat} (hn : n ≤ 64) : (fractionsBelow n).Nodup := by
  refine List.nodup_range.map_on fun k hk l hl h => ?_
  have hmod := congrArg BitVec.toNat h
  rw [List.mem_range] at hk hl
  rw [BitVec.toNat_ofNat, BitVec.toNat_ofNat] at hmod
  omega

theorem wellFormedInstrs_nodup : wellFormedInstrs.Nodup := by
  have h8 : ((fractionsBelow 16).map Instr.mulq8).Nodup :=
    (fractionsBelow_nodup (by decide)).map fun _ _ => Instr.mulq8.inj
  have h16 : ((fractionsBelow 32).map Instr.mulq16).Nodup :=
    (fractionsBelow_nodup (by decide)).map fun _ _ => Instr.mulq16.inj
  have h32 : ((fractionsBelow 64).map Instr.mulq32).Nodup :=
    (fractionsBelow_nodup (by decide)).map fun _ _ => Instr.mulq32.inj
  simp [wellFormedInstrs, List.nodup_append, h8, h16, h32, fixedInstrs, or_imp, forall_and]

/-- Settles O6: the commands of the well-formed operations, which encoding keeps apart. -/
theorem legalCommandsNumber139 : Obligations.LegalCommandsNumber139 := by
  refine ⟨wellFormedInstrs.map encode, ?_, ?_, fun cmd => ?_⟩
  · exact wellFormedInstrs_nodup.map_on fun i hi j hj => 
      encode_injOn ((mem_wellFormedInstrs i).mp hi) ((mem_wellFormedInstrs j).mp hj)
  · rfl
  · simp [isLegal_iff_exists_encode, mem_wellFormedInstrs]


/-! ### The reserved space -/


theorem exists_selectWidth_eq_ok {wc : BitVec 2} {w8 w16 w32 : Instr} :
    (∃ i, selectWidth wc w8 w16 w32 = .ok i) ↔ wc ≠ 3#2 := by
  have hcodes : ∀ wc : BitVec 2, wc = 0#2 ∨ wc = 1#2 ∨ wc = 2#2 ↔ wc ≠ 3#2 := by decide
  simp only [selectWidth_eq_ok_iff, exists_or, exists_and_left, exists_eq', and_true, hcodes]

theorem exists_decodeMultiply_eq_ok {wc : BitVec 2} {sg : Bool} {f : BitVec 6} {w8 w16 w32 : Instr} :
    (∃ i, decodeMultiply wc sg f w8 w16 w32 = .ok i) ↔ sg = true ∧ f = 0#6 ∧ wc ≠ 3#2 := by
  simp only [decodeMultiply_eq_ok_iff, exists_and_left, exists_selectWidth_eq_ok]

/-- The bound `f < 2W` of a shifted multiply, with W read from the width code. -/
theorem exists_decodeShifted_eq_ok {wc : BitVec 2} {sg : Bool} {f : BitVec 6} :
    (∃ i, decodeShifted wc sg f = .ok i) ↔ sg = true ∧ wc ≠ 3#2 ∧ f.toNat < 2 * (8 * 2 ^ wc.toNat) := by
  have hwidth : ∀ i, selectWidth wc (.mulq8 f) (.mulq16 f) (.mulq32 f) = .ok i →
      (WellFormed i = true ↔ f.toNat < 2 * (8 * 2 ^ wc.toNat)) := by
    intro i hi
    obtain ⟨rfl, rfl⟩ | ⟨rfl, rfl⟩ | ⟨rfl, rfl⟩ := selectWidth_eq_ok_iff.mp hi
    · exact decide_eq_true_iff
    · exact decide_eq_true_iff
    · exact iff_of_true rfl f.isLt
  simp only [decodeShifted_eq_ok_iff, exists_and_left, ← exists_selectWidth_eq_ok (w8 := .mulq8 f) (w16 := .mulq16 f)
    (w32 := .mulq32 f), ← exists_and_right]
  exact and_congr_right fun _ => exists_congr fun i => and_congr_right (hwidth i)

theorem exists_decodeFloat_eq_ok {wc : BitVec 2} {f : BitVec 6} {x : Except Reject Instr} :
    (∃ i, decodeFloat wc f x = .ok i) ↔ wc = 2#2 ∧ f = 0#6 ∧ ∃ i, x = .ok i := by
  simp only [decodeFloat_eq_ok_iff, exists_and_left]

theorem exists_unsignedOnly_eq_ok {sg : Bool} {i : Instr} : (∃ j, unsignedOnly sg i = .ok j) ↔ sg = false := by
  simp [unsignedOnly_eq_ok_iff]

theorem exists_ite_error_eq_ok {p : Prop} [Decidable p] {r : Reject} {x : Except Reject Instr} :
    (∃ i, (if p then .error r else x) = .ok i) ↔ ¬p ∧ ∃ i, x = .ok i := by
  split <;> simp [*]

/-- The seven conditions of R65. -/
def Reserved (cmd : Cmd) : Prop :=
  (cmd.getLsbD 7 = true ∨ cmd.extractLsb' 14 2 ≠ 0#2) ∨
  (cmdFunc cmd = 0x5#4 ∨ cmdFunc cmd = 0x6#4 ∨ cmdFunc cmd = 0x7#4) ∨
  (0x1#4 ≤ cmdFunc cmd ∧ cmdFunc cmd ≤ 0x4#4 ∧ (cmdSg cmd = false ∨ cmdWc cmd = 3#2)) ∨
  ((cmdFunc cmd ≤ 0x3#4 ∨ 0x8#4 ≤ cmdFunc cmd) ∧ cmdF cmd ≠ 0#6) ∨
  (cmdFunc cmd = 0x4#4 ∧ 2 * (8 * 2 ^ (cmdWc cmd).toNat) ≤ (cmdF cmd).toNat) ∨
  (0x8#4 ≤ cmdFunc cmd ∧ cmdFunc cmd ≤ 0xD#4 ∧ (cmdWc cmd ≠ 2#2 ∨ cmdSg cmd = true)) ∨
  (0xE#4 ≤ cmdFunc cmd ∧ cmdWc cmd ≠ 2#2)

/-- For each function code, R65's conditions are what the decoder's branch for it rejects. -/
theorem isLegal_eq_false_iff_reserved (cmd : Cmd) : isLegal cmd = false ↔ Reserved cmd := by
  rw [← Bool.not_eq_true, isLegal_iff_exists_decode, decode, Reserved, ← cmdRsv0, ← cmdRsv1, exists_ite_error_eq_ok]
  by_cases hrsv : cmdRsv0 cmd = true ∨ cmdRsv1 cmd ≠ 0#2
  · simp only [hrsv, not_true, false_and, not_false_iff, true_or]
  simp only [hrsv, not_false_iff, true_and, false_or]
  split
  case h_1 hfunc =>
    rw [exists_ite_error_eq_ok]
    simp [hfunc]
  case h_2 hfunc | h_3 hfunc | h_4 hfunc =>
    simp +decide only [hfunc, exists_decodeMultiply_eq_ok]
    grind
  case h_5 hfunc =>
    simp +decide only [hfunc, exists_decodeShifted_eq_ok]
    grind
  case h_6 hfunc | h_7 hfunc | h_8 hfunc | h_9 hfunc | h_10 hfunc | h_11 hfunc =>
    simp +decide only [hfunc, exists_decodeFloat_eq_ok, exists_unsignedOnly_eq_ok]
    grind
  case h_12 hfunc | h_13 hfunc =>
    simp +decide only [hfunc, exists_decodeFloat_eq_ok]
    grind
  case h_14 =>
    have hcodes : ∀ func : BitVec 4, func ∈ [0x0#4, 0x1#4, 0x2#4, 0x3#4, 0x4#4, 0x8#4, 0x9#4, 0xA#4, 0xB#4, 0xC#4,
        0xD#4, 0xE#4, 0xF#4] ∨ func = 0x5#4 ∨ func = 0x6#4 ∨ func = 0x7#4 := by decide
    obtain hbranch | hfunc := hcodes (cmdFunc cmd)
    · simp only [List.mem_cons, List.not_mem_nil, or_false] at hbranch
      tauto
    · simp [hfunc]

end Sys2Proof
end

section
/-! PROOF. One step and one transaction (10_state.md R21, R22; 60_exceptions.md R250, R252; 70_reset_and_hazards.md R280,
R281, R284). `step_cases` says what a step can do; a transaction then either completes with the results that the
operands at the port give, or is answered as illegal, and neither depends on what the unit did before. -/

namespace Sys2Proof.Machine

/-! ### Every operation completes -/

/-- Settles O11: the results are those of `exec_eq_respond_results`. -/
theorem everyOperationCompletes : Obligations.EveryOperationCompletes :=
  fun i s => ⟨_, _, (responds_iff_results i s _ _).mpr ⟨rfl, rfl⟩⟩

/-! ### One step -/

variable {s t : State} {i : Instr} {r : Request}

/-- With reset asserted the step is to the reset state. -/
theorem step_of_reset (hs : s.resetAsserted = true) : step s = .next State.reset := if_pos hs

/-- With nothing asked of the unit the step only ends the standing response. -/
theorem step_of_idle (hs : s.resetAsserted = false) (hq : s.requested = false) : step s = .next s.idle := by
  simp [step, hs, hq]

/-- A requested command that spells an operation runs it. -/
theorem step_of_decode (hs : s.resetAsserted = false) (hq : s.requested = true) (h : decode s.cmd = .ok i) :
    step s = exec i s := by
  simp [step, hs, hq, h]

/-- A requested command that spells none faults. -/
theorem step_of_illegal (hs : s.resetAsserted = false) (hq : s.requested = true) (h : isLegal s.cmd = false) :
    step s = .fault (.illegalCommand s.cmd) := by
  obtain ⟨hr, -⟩ | ⟨-, hi, -⟩ | ⟨-, -, j, hd, -⟩ | ⟨-, -, -, hstep⟩ := step_cases s
  · simp [hs] at hr
  · simp [hq] at hi
  · simp [isLegal_iff_exists_decode.mpr ⟨j, hd⟩] at h
  · exact hstep

/-- Settles O8: the waiting step, with the two bits of the state that it keeps. -/
theorem stepWaitsWithoutRequest : Obligations.StepWaitsWithoutRequest := by
  intro s hs hq
  rw [step_of_idle hs hq, State.idle, hs, hq]

/-- Settles O10: of the things that a step can do only the last is a fault, and none is a refusal. -/
theorem onlyIllegalCommandsStop : Obligations.OnlyIllegalCommandsStop := by
  refine ⟨fun s f => ⟨fun h => ?_, ?_⟩, fun s x h => ?_⟩
  · obtain ⟨-, hstep⟩ | ⟨-, -, hstep⟩ | ⟨-, -, i, -, hstep⟩ | ⟨hs, hq, hillegal, hstep⟩ := step_cases s
    · simp [hstep] at h
    · simp [hstep] at h
    · simp [hstep, exec_eq_respond_results] at h
    · rw [hstep, Host.Outcome.fault.injEq] at h
      exact ⟨hs, hq, hillegal, h.symm⟩
  · rintro ⟨hs, hq, hillegal, rfl⟩
    exact step_of_illegal hs hq hillegal
  · obtain ⟨-, hstep⟩ | ⟨-, -, hstep⟩ | ⟨-, -, i, -, hstep⟩ | ⟨-, -, -, hstep⟩ := step_cases s
    · simp [hstep] at h
    · simp [hstep] at h
    · simp [hstep, exec_eq_respond_results] at h
    · simp [hstep] at h

/-! ### The ports in agreement -/

theorem portsAgree_of_response_none (h : s.response = none) : PortsAgree s := by
  intro r _ hr
  simp [h] at hr

/-- Settles O16: no response stands after reset. -/
theorem portsAgreeAfterReset : Obligations.PortsAgreeAfterReset := portsAgree_of_response_none rfl

/-- An operation leaves at the port the request that it answers, with its response beside it. -/
theorem portsAgree_of_exec (hd : decode s.cmd = .ok i) (h : exec i s = .next t) : PortsAgree t := by
  rw [exec_eq_respond_results, Host.Outcome.next.injEq] at h
  subst h
  rintro _ - ⟨rfl⟩
  exact ⟨i, hd, (responds_iff_results i _ _ _).mpr ⟨rfl, rfl⟩, rfl⟩

/-- Settles O15: a step ends the standing response, or runs the operation whose request stays at the port. -/
theorem stepKeepsPortsInAgreement : Obligations.StepKeepsPortsInAgreement := by
  intro s t _ h
  obtain ⟨-, hstep⟩ | ⟨-, -, hstep⟩ | ⟨-, -, i, hd, hstep⟩ | ⟨-, -, -, hstep⟩ := step_cases s
  · rw [hstep, Host.Outcome.next.injEq] at h
    exact portsAgree_of_response_none (h ▸ rfl)
  · rw [hstep, Host.Outcome.next.injEq] at h
    exact portsAgree_of_response_none (h ▸ rfl)
  · exact portsAgree_of_exec hd (hstep ▸ h)
  · simp [hstep] at h

/-! ### One transaction -/

theorem transact_of_decode (hs : s.resetAsserted = false) (h : decode r.cmd = .ok i) :
    transact s r = exec i (s.present r) := step_of_decode hs rfl h

theorem transact_of_illegal (hs : s.resetAsserted = false) (h : isLegal r.cmd = false) :
    transact s r = .fault (.illegalCommand r.cmd) := step_of_illegal (s := s.present r) hs rfl h

/-- The state with a request on its port, where no reset is asserted. -/
theorem State.present_eq (hs : s.resetAsserted = false) :
    s.present r =
      { cmd := r.cmd, a := r.a, b := r.b, requested := true, resetAsserted := false, response := s.response } := by
  rw [State.present, hs]

/-- Settles O7: the dispatch of a step, and so of a transaction. -/
theorem stepRunsTheDecodedOperation : Obligations.StepRunsTheDecodedOperation := by
  refine ⟨fun s i => step_of_decode, fun s r i hs h => ?_⟩
  rw [transact_of_decode hs h, State.present_eq hs]

/-- Settles O17: the reset state has no request and no reset standing, so its first request is a transaction. -/
theorem readyAfterReset : Obligations.ReadyAfterReset :=
  ⟨rfl, rfl, rfl, fun _ _ h => transact_of_decode rfl h⟩

/-- The results of an operation on a request's operands, as its response. -/
def legalResponse (i : Instr) (r : Request) : Response where
  res0 := toPort (i.result0 (lowBits i.width r.a) (lowBits i.width r.b))
  res1 := toPort (i.result1 (lowBits i.width r.a) (lowBits i.width r.b))
  illegal := false

/-- A legal transaction leaves its request taken and answered. -/
theorem afterTransaction_of_decode (draw : Nat) (hs : s.resetAsserted = false) (h : decode r.cmd = .ok i) :
    afterTransaction draw s r =
      (s.present r).respond (legalResponse i r).res0 (legalResponse i r).res1 := by
  rw [afterTransaction, transact_of_decode hs h, exec_eq_respond_results]
  rfl

/-- An illegal transaction leaves its request answered as illegal. -/
theorem afterTransaction_of_illegal (draw : Nat) (hs : s.resetAsserted = false) (h : isLegal r.cmd = false) :
    afterTransaction draw s r = (s.present r).respondIllegal draw := by
  rw [afterTransaction, transact_of_illegal hs h]

/-- Settles O9: the fault of a transaction, and the ports beside it. -/
theorem illegalCommandFaultsAndIsAnswered : Obligations.IllegalCommandFaultsAndIsAnswered := by
  intro draw s r hs h
  refine ⟨transact_of_illegal hs h, ?_⟩
  rw [afterTransaction_of_illegal draw hs h, State.present_eq hs]
  rfl

/-- Settles O4: R65 lists what the decoder rejects, and the illegal response is that of O9. -/
theorem reservedSpaceExactly : Obligations.ReservedSpaceExactly := by
  refine ⟨isLegal_eq_false_iff_reserved, fun draw s r hs h => ⟨transact_of_illegal hs h, ?_⟩⟩
  rw [afterTransaction_of_illegal draw hs h]
  rfl

/-! ### Responses do not depend on the unit's past -/

/-- The response to a legal request is a function of the request. -/
theorem response_of_decode (draw : Nat) (hs : s.resetAsserted = false) (h : decode r.cmd = .ok i) :
    (afterTransaction draw s r).response = some (legalResponse i r) := by
  rw [afterTransaction_of_decode draw hs h, State.respond_response]
  rfl

/-- A request gets the same response at any two states without reset. -/
theorem response_congr (draw : Nat) (hs : s.resetAsserted = false) (ht : t.resetAsserted = false) :
    (afterTransaction draw s r).response = (afterTransaction draw t r).response := by
  cases hl : isLegal r.cmd with
  | true =>
    obtain ⟨i, hd⟩ := isLegal_iff_exists_decode.mp hl
    rw [response_of_decode draw hs hd, response_of_decode draw ht hd]
  | false =>
    rw [afterTransaction_of_illegal draw hs hl, afterTransaction_of_illegal draw ht hl, State.respondIllegal_response,
      State.respondIllegal_response]

/-- A transaction does not touch the reset line. -/
theorem afterTransaction_resetAsserted (draw : Nat) (hs : s.resetAsserted = false) :
    (afterTransaction draw s r).resetAsserted = false := by
  cases hl : isLegal r.cmd with
  | true =>
    obtain ⟨i, hd⟩ := isLegal_iff_exists_decode.mp hl
    rw [afterTransaction_of_decode draw hs hd, State.respond_resetAsserted, State.present_resetAsserted, hs]
  | false => rw [afterTransaction_of_illegal draw hs hl, State.respondIllegal_resetAsserted,
      State.present_resetAsserted, hs]

/-- Settles O13: by induction on the requests, each answered as at reset and leaving no reset asserted. -/
theorem responsesIndependentOfEarlierOperations : Obligations.ResponsesIndependentOfEarlierOperations := by
  intro draw s rs hs
  induction rs generalizing draw s with
  | nil => rfl
  | cons r rs ih =>
    rw [responsesTo, ih _ _ (afterTransaction_resetAsserted draw hs), List.mapIdx_cons, responseOf,
      response_congr draw hs State.reset_resetAsserted]
    simp only [Nat.add_zero, Nat.add_assoc, Nat.add_comm 1]

/-- Settles O14: the response to a legal request is `legalResponse`, which names neither the state nor a draw. -/
theorem legalResponsesDrawNothing : Obligations.LegalResponsesDrawNothing := by
  intro draw draw' s t r hs ht hl
  obtain ⟨i, hd⟩ := isLegal_iff_exists_decode.mp hl
  rw [response_of_decode draw hs hd, response_of_decode draw' ht hd]
  exact ⟨rfl, _, rfl, rfl⟩

/-- Settles O18: reset comes first in a step, and the reset state answers as any other. -/
theorem resetAbandonsTheRequest : Obligations.ResetAbandonsTheRequest :=
  ⟨fun _ => step_of_reset, rfl, rfl, fun _ _ hs => ⟨step_of_reset rfl, fun draw => response_congr draw rfl hs⟩⟩

end Sys2Proof.Machine
end

section
/-! PROOF. The signed divide adapter (40_integer_divide.md R103, R110, R111). The engine gives quotient and remainder of
the magnitudes; negating by the signs turns them into the truncated quotient of the signed readings and its remainder,
and the laws of R111 are those of truncated division. -/

namespace Sys2Proof.Machine

/-! ### Narrow divides -/

/-- Settles O24: either division gives the natural quotient and remainder of the operands. -/
theorem narrowDividesMatchTheirOwnWidth : Obligations.NarrowDividesMatchTheirOwnWidth := by
  intro W n d hW
  have hfit : W ≤ engineWidth W := by
    unfold engineWidth
    split <;> omega
  obtain ⟨hq, hr⟩ := divideUnsigned_toNat n d hfit
  obtain ⟨hq', hr'⟩ := udiv_toNat n d
  exact Prod.ext (BitVec.eq_of_toNat_eq (hq.trans hq'.symm)) (BitVec.eq_of_toNat_eq (hr.trans hr'.symm))

/-! ### Truncated division by signs and magnitudes -/

/-- An integer with its sign put back on its magnitude. -/
theorem eq_signed_natAbs (x : Int) : x = if x < 0 then -(x.natAbs : Int) else x.natAbs := by
  split <;> omega

theorem intQuotient_eq (x y : Int) : intQuotient x y =
    if (decide (x < 0) ^^ decide (y < 0)) then -(natQuotient x.natAbs y.natAbs : Int)
    else natQuotient x.natAbs y.natAbs := by
  by_cases hy : y = 0
  · simp [intQuotient, natQuotient, hy]
  rw [intQuotient, natQuotient, if_neg hy, if_neg (Int.natAbs_ne_zero.mpr hy)]
  conv_lhs => rw [eq_signed_natAbs x, eq_signed_natAbs y]
  generalize x.natAbs = m, y.natAbs = n
  by_cases hx0 : x < 0 <;> by_cases hy0 : y < 0 <;>
    simp [hx0, hy0, Int.neg_tdiv, Int.tdiv_neg]

theorem intRemainder_eq (x y : Int) : intRemainder x y =
    if x < 0 then -(natRemainder x.natAbs y.natAbs : Int) else natRemainder x.natAbs y.natAbs := by
  by_cases hy : y = 0
  · simp [intRemainder, natRemainder, hy]
  have hmod : x - x.tdiv y * y = x.tmod y := by rw [Int.tmod_def, mul_comm]
  rw [intRemainder, natRemainder, if_neg hy, if_neg (Int.natAbs_ne_zero.mpr hy), hmod]
  conv_lhs => rw [eq_signed_natAbs x, eq_signed_natAbs y]
  generalize x.natAbs = m, y.natAbs = n
  by_cases hx0 : x < 0 <;> by_cases hy0 : y < 0 <;>
    simp [hx0, hy0, Int.neg_tmod, Int.tmod_neg, ← Int.ofNat_tmod]

variable {x y : Int}

theorem intQuotient_mul_add_intRemainder (hy : y ≠ 0) : intQuotient x y * y + intRemainder x y = x := by
  rw [intQuotient, intRemainder, if_neg hy, if_neg hy]
  ring

/-- The remainder has its magnitude from the magnitudes, and the dividend's sign. -/
theorem natAbs_intRemainder_lt (hy : y ≠ 0) : (intRemainder x y).natAbs < y.natAbs := by
  have hpos : 0 < y.natAbs := Int.natAbs_pos.mpr hy
  have hlt : natRemainder x.natAbs y.natAbs < y.natAbs := by
    rw [natRemainder, if_neg hpos.ne']
    exact Nat.mod_lt _ hpos
  rw [intRemainder_eq]
  split <;> omega

theorem intRemainder_neg_iff : intRemainder x y < 0 ↔ x < 0 ∧ intRemainder x y ≠ 0 := by
  rw [intRemainder_eq]
  split <;> omega

/-! ### The adapter -/

variable {W : Nat}

theorem negateIf_eq_ofInt (neg : Bool) (v : BitVec W) :
    negateIf neg v = BitVec.ofInt W (if neg then -(v.toNat : Int) else v.toNat) := by
  cases neg <;> simp [negateIf, BitVec.ofInt_neg]

/-- The adapter's two results are the truncated quotient and its remainder, as patterns. -/
theorem divideSigned_eq_ofInt (a b : BitVec W) (hW : W ≤ engineWidth W) : divideSigned a b =
    (BitVec.ofInt W (intQuotient a.toInt b.toInt), BitVec.ofInt W (intRemainder a.toInt b.toInt)) := by
  obtain ⟨hq, hr⟩ := divideUnsigned_toNat (magnitude a) (magnitude b) hW
  rw [magnitude_toNat, magnitude_toNat] at hq hr
  simp only [divideSigned, negateIf_eq_ofInt, hq, hr, BitVec.msb_eq_toInt, intQuotient_eq, intRemainder_eq,
    decide_eq_true_eq]

/-- Settles O22: DIVS drives the adapter's two results. -/
theorem signedDivides : Obligations.SignedDivides := by
  intro i s hi
  rw [responds_divs_iff hi, divideSigned_eq_ofInt _ _ (width_le_engineWidth i)]
  exact ⟨rfl, rfl⟩

theorem toInt_ne_zero {b : BitVec W} (hb : b ≠ 0#W) : b.toInt ≠ 0 :=
  fun h => hb (BitVec.toInt_inj.mp (h.trans BitVec.toInt_zero.symm))

/-- A remainder is read back from its pattern. -/
theorem toInt_ofInt_intRemainder (a : BitVec W) {b : BitVec W} (hb : b ≠ 0#W) :
    (BitVec.ofInt W (intRemainder a.toInt b.toInt)).toInt = intRemainder a.toInt b.toInt := by
  have hlt : (intRemainder a.toInt b.toInt).natAbs < b.toInt.natAbs :=
    natAbs_intRemainder_lt (toInt_ne_zero hb)
  have hlow : -(2 ^ (W - 1)) ≤ b.toInt := BitVec.le_toInt b
  have hhigh : b.toInt < 2 ^ (W - 1) := BitVec.toInt_lt
  have hW : 0 < W := by
    rcases Nat.eq_zero_or_pos W with rfl | h
    · exact absurd (BitVec.of_length_zero) hb
    · exact h
  exact BitVec.toInt_ofInt_eq_self hW (by omega) (by omega)

/-- Settles O23: the laws of truncated division, read back from the patterns. -/
theorem signedDivideLaws : Obligations.SignedDivideLaws := by
  intro W hmem a b
  have hW : W ≤ engineWidth W := by fin_cases hmem <;> decide
  have hpos : 0 < W := by fin_cases hmem <;> decide
  refine ⟨fun hb => ?_, ?_, divideSigned_zero a, ?_⟩
  · have hb0 : b.toInt ≠ 0 := toInt_ne_zero hb
    rw [divideSigned_eq_ofInt a b hW]
    refine ⟨?_, ?_, ?_⟩
    · rw [toInt_ofInt_intRemainder a hb]
      exact natAbs_intRemainder_lt hb0
    · by_cases hr : intRemainder a.toInt b.toInt = 0
      · exact .inl (by simp [hr])
      · right
        simp only [BitVec.msb_eq_toInt, toInt_ofInt_intRemainder a hb, intRemainder_neg_iff, hr, ne_eq, not_false_iff,
          and_true]
    · calc _ = BitVec.ofInt W (intQuotient a.toInt b.toInt * b.toInt + intRemainder a.toInt b.toInt) := by
            rw [BitVec.ofInt_add, BitVec.ofInt_mul, BitVec.ofInt_toInt]
        _ = a := by rw [intQuotient_mul_add_intRemainder hb0, BitVec.ofInt_toInt]
  · have hone : (BitVec.allOnes W).toInt = -1 := by simp [BitVec.toInt_allOnes, hpos]
    rw [divideSigned_eq_ofInt _ _ hW, hone]
    simp [intQuotient, intRemainder, BitVec.ofInt_neg]
  · rw [divideSigned_eq_ofInt _ _ hW]
    simp [intQuotient, intRemainder]

end Sys2Proof.Machine
end

section
/-! PROOF. The slices of the product (41_integer_multiply.md R130, R132, R139; 20_memory.md R44). Both halves are digits
of the product in base 2^W, and the high half is also the product shifted right by W. -/

namespace Sys2Proof.Machine

variable {W : Nat} (a b : BitVec W)

/-! ### The halves as digits -/

theorem productLow_toNat : (productLow a b).toNat = (product a b).toNat % 2 ^ W := by
  simp [productLow]

theorem productHigh_toNat : (productHigh a b).toNat = (product a b).toNat / 2 ^ W := by
  have hlt : (product a b).toNat < 2 ^ W * 2 ^ W := by
    rw [← pow_add, ← two_mul]
    exact (product a b).isLt
  rw [productHigh, BitVec.extractLsb'_toNat, Nat.shiftRight_eq_div_pow, Nat.mod_eq_of_lt (Nat.div_lt_of_lt_mul hlt)]

/-- The product is its high half above its low half. -/
theorem productHigh_mul_add_productLow :
    (productHigh a b).toNat * 2 ^ W + (productLow a b).toNat = (product a b).toNat := by
  rw [productHigh_toNat, productLow_toNat, Nat.div_add_mod']

/-- Settles O25: the loop's product, exact as a signed value, has the low half of the unsigned product. -/
theorem shiftAndAddIsTheExactProduct : Obligations.ShiftAndAddIsTheExactProduct := by
  refine fun W a b => ⟨product_eq_ofInt a b, product_toInt a b, ?_⟩
  rw [← productLow_toNat, productLow_eq_ofInt, ofInt_toInt_mul_toInt, BitVec.toNat_ofNat]

/-! ### The halves as shifts -/

theorem productShifted_zero : productShifted 0 a b = productLow a b := by
  rw [productShifted, BitVec.sshiftRight_zero, productLow]

theorem productShifted_width : productShifted W a b = productHigh a b := by
  apply BitVec.eq_of_getLsbD_eq
  intro k hk
  have hin : W + k < 2 * W := by omega
  have hle : ¬2 * W ≤ k := by omega
  simp [productShifted, productHigh, BitVec.getLsbD_sshiftRight, hk, hin, hle]

/-- Settles O26: the halves are the digits and the shifts of the product. -/
theorem productSlices : Obligations.ProductSlices := fun _ a b =>
  ⟨productHigh_mul_add_productLow a b, product_sshiftRight_toInt a b, productShifted_zero a b, productShifted_width a b⟩

/-- The high half is the signed product divided by 2^W, rounded toward −∞. -/
theorem productHigh_eq_ofInt : productHigh a b = BitVec.ofInt W (a.toInt * b.toInt / 2 ^ W) := by
  have hfloor : ⌊((a.toInt * b.toInt : ℤ) : ℚ) / 2 ^ W⌋ = a.toInt * b.toInt / 2 ^ W := by
    exact_mod_cast Rat.floor_intCast_div_natCast (a.toInt * b.toInt) (2 ^ W)
  rw [← productShifted_width, productShifted_eq_ofInt, hfloor]

/-! ### MULH -/

/-- Each MULH completes with the high half of the product at its width. -/
theorem responds_mulh_iff {i : Instr} {s : State} {r0 r1 : Port} (hi : i ∈ [Instr.mulh8, .mulh16, .mulh32]) :
    Responds i s r0 r1 ↔ r0 = toPort (productHigh (lowBits i.width s.a) (lowBits i.width s.b)) ∧ r1 = 0#64 := by
  fin_cases hi <;> exact responds_iff_results _ s r0 r1

/-- A negative number of magnitude at most 2^W has −1 as its floor over 2^W. -/
theorem ediv_two_pow_eq_neg_one {p : Int} (hneg : p < 0) (hlow : -(2 ^ W) ≤ p) : p / 2 ^ W = -1 := by
  have hpos : (0 : Int) < 2 ^ W := by positivity
  rw [Int.ediv_eq_iff_of_pos hpos]
  omega

/-- Settles O29: MULH drives the high half; a negative product of magnitude at most 2^W leaves −1 there. -/
theorem highProducts : Obligations.HighProducts := by
  refine ⟨rfl, rfl, rfl, fun i s hi => ?_⟩
  rw [responds_mulh_iff hi, responds_mulh_iff hi, productHigh_eq_ofInt]
  refine ⟨⟨rfl, rfl⟩, fun hneg hlow => ⟨?_, rfl⟩⟩
  rw [ediv_two_pow_eq_neg_one hneg hlow, ← BitVec.neg_one_eq_allOnes, BitVec.ofInt_neg]
  rfl

/-! ### MUL from its halves -/

/-- On the 64-bit port the product is the high half shifted up by W above the low half. -/
theorem toPort_product (hW : 2 * W ≤ 64) :
    toPort (product a b) = toPort (productHigh a b) <<< W ||| toPort (productLow a b) := by
  have hlt := (product a b).isLt.trans_le (Nat.pow_le_pow_right (by decide) hW)
  have hsplit := productHigh_mul_add_productLow a b
  apply BitVec.eq_of_toNat_eq
  rw [toPort_toNat _ hW, BitVec.toNat_or, BitVec.toNat_shiftLeft, toPort_toNat _ (by omega), toPort_toNat _ (by omega),
    Nat.shiftLeft_eq, Nat.mod_eq_of_lt (by omega), Nat.mul_comm (productHigh a b).toNat,
    ← Nat.two_pow_add_eq_or_of_lt (productLow a b).isLt, Nat.mul_comm (2 ^ W), hsplit]

/-- Settles O31: the three forms drive the product and its halves. -/
theorem halvesOfTheFullProduct : Obligations.HalvesOfTheFullProduct := by
  intro s w full high hmem
  fin_cases hmem <;>
    exact ⟨_, _, _, (responds_iff_results _ s _ _).mpr ⟨rfl, rfl⟩, (responds_iff_results _ s _ _).mpr ⟨rfl, rfl⟩,
      (responds_iff_results _ s _ _).mpr ⟨rfl, rfl⟩, toPort_product _ _ (by decide)⟩

end Sys2Proof.Machine
end

section
/-! PROOF. The values of patterns (42_float_common.md R162, R163). The value of a pattern put together from its fields, and
the normaliser: the leading bit of a subnormal's significand field says how far to shift it. -/

namespace Sys2Proof.Machine

/-! ### Values by the fields -/

theorem val_of_subnormal {x : B32} (he : expf x = 0#8) :
    val x = signFactor (sgn x) * (frac x).toNat * (2 : ℚ) ^ (-149 : ℤ) := by
  by_cases hf : frac x = 0#23
  · simp [val, classify_of_zero he hf, hf]
  · simp [val, classify_of_subnormal he hf]

theorem val_of_normal {x : B32} (h0 : expf x ≠ 0#8) (h1 : expf x ≠ 0xFF#8) :
    val x = signFactor (sgn x) * (2 ^ 23 + (frac x).toNat) * (2 : ℚ) ^ (((expf x).toNat : ℤ) - 150) := by
  simp [val, classify_of_normal h0 h1]

@[simp] theorem val_signedZero (s : Bool) : val (signedZero s) = 0 := by simp [val]

theorem abs_signFactor (s : Bool) : |signFactor s| = 1 := by cases s <;> simp [signFactor]

/-- The magnitude of a pattern counts whole units of 2^-149. -/
theorem abs_val_eq_unitsAbs (x : B32) : |val x| = (unitsAbs x : ℚ) * (2 : ℚ) ^ (-149 : ℤ) := by
  rw [val_eq_units, abs_mul, abs_of_pos (zpow_pos two_pos (-149) : (0 : ℚ) < _), ← natAbs_units, Nat.cast_natAbs,
    Int.cast_abs]

/-! ### The normaliser -/

/-- Exactly the nonzero finite patterns are normalised. -/
theorem normalise_isSome_iff (x : B32) :
    (normalise x).isSome = true ↔ isFinite x = true ∧ isZero x = false := by
  unfold normalise isFinite isZero isInf isNaN
  cases classify x <;> simp

theorem normalise_of_normal {x : B32} (h0 : expf x ≠ 0#8) (h1 : expf x ≠ 0xFF#8) :
    normalise x = some (2 ^ 23 + (frac x).toNat, ((expf x).toNat : ℤ) - 127) := by
  rw [normalise, classify_of_normal h0 h1]

theorem normalise_of_subnormal {x : B32} (he : expf x = 0#8) (hf : frac x ≠ 0#23) :
    normalise x = some ((frac x).toNat <<< (23 - Nat.log2 (frac x).toNat),
      -126 - ((23 - Nat.log2 (frac x).toNat : ℕ) : ℤ)) := by
  rw [normalise, classify_of_subnormal he hf]

/-- Shifted by what its leading bit is short of bit 23, a number has its leading bit there. -/
theorem shiftLeft_log2_bounds {n p : Nat} (hn : n ≠ 0) (hp : Nat.log2 n ≤ p) :
    2 ^ p ≤ n <<< (p - Nat.log2 n) ∧ n <<< (p - Nat.log2 n) < 2 ^ (p + 1) := by
  have hlow := Nat.log2_self_le hn
  have hhigh := Nat.lt_log2_self (n := n)
  rw [Nat.shiftLeft_eq]
  constructor
  · calc 2 ^ p = 2 ^ Nat.log2 n * 2 ^ (p - Nat.log2 n) := by rw [← pow_add, Nat.add_sub_cancel' hp]
      _ ≤ _ := Nat.mul_le_mul_right _ hlow
  · calc _ < 2 ^ (Nat.log2 n + 1) * 2 ^ (p - Nat.log2 n) := Nat.mul_lt_mul_of_pos_right hhigh (by positivity)
      _ = 2 ^ (p + 1) := by rw [← pow_add]; congr 1; omega

/-- Settles O33: a normal pattern has its leading bit already, a subnormal one is shifted to it. -/
theorem normaliseKeepsTheValue : Obligations.NormaliseKeepsTheValue := by
  refine fun x => ⟨normalise_isSome_iff x, fun sig e h => ?_⟩
  obtain ⟨hfin, hzero⟩ := (normalise_isSome_iff x).mp (by rw [h]; rfl)
  have h1 : expf x ≠ 0xFF#8 := by
    intro he
    by_cases hf : frac x = 0#23
    · simp [isFinite, isInf, classify_of_inf he hf] at hfin
    · simp [isFinite, isNaN, classify_of_nan he hf] at hfin
  have hlt := (frac x).isLt
  by_cases h0 : expf x = 0#8
  · have hf : frac x ≠ 0#23 := fun hf => by simp [isZero, classify_of_zero h0 hf] at hzero
    have hf0 : (frac x).toNat ≠ 0 := BitVec.toNat_ne_iff_ne.mpr hf
    have hlog : Nat.log2 (frac x).toNat ≤ 23 := ((Nat.log2_lt hf0).mpr hlt).le
    obtain ⟨hlow, hhigh⟩ := shiftLeft_log2_bounds hf0 hlog
    rw [normalise_of_subnormal h0 hf] at h
    obtain ⟨rfl, rfl⟩ := Prod.mk.inj (Option.some.inj h)
    refine ⟨hlow, hhigh, ?_⟩
    rw [val_of_subnormal h0, abs_mul, abs_mul, abs_signFactor, one_mul, Nat.abs_cast,
      abs_of_pos (zpow_pos two_pos (-149) : (0 : ℚ) < _), Nat.shiftLeft_eq]
    push_cast
    rw [mul_assoc, ← zpow_natCast (2 : ℚ), ← zpow_add₀ two_ne_zero]
    congr 2
    ring
  · rw [normalise_of_normal h0 h1] at h
    obtain ⟨rfl, rfl⟩ := Prod.mk.inj (Option.some.inj h)
    refine ⟨by omega, by omega, ?_⟩
    rw [val_of_normal h0 h1, abs_mul, abs_mul, abs_signFactor, one_mul, abs_of_pos (by positivity),
      abs_of_pos (zpow_pos two_pos _)]
    push_cast
    congr 2
    ring

end Sys2Proof.Machine
end

section
/-! PROOF. What packing gives (42_float_common.md R167, R169, R170; 90_conflicts.md C6): the pattern in each range of the
exponent and its value, and from these the sign, the overflow thresholds, the difference between the two settings of
`UNDERFLOW`, and that a result of RNE is a nearest value. -/

namespace Sys2Proof.Machine

/-! ### The pattern at subnormal precision -/

theorem packSubnormal_zero (s : Bool) : packSubnormal s 0 = signedZero s := by cases s <;> rfl

theorem packSubnormal_smallestNormal (s : Bool) : packSubnormal s (2 ^ 23) = ofFields s 0x01#8 0#23 := by
  cases s <;> rfl

theorem ofFields_toNat (s : Bool) (e : BitVec 8) (f : BitVec 23) :
    (ofFields s e f).toNat = (if s then 2 ^ 31 else 0) + (e.toNat * 2 ^ 23 + f.toNat) := by
  have he := e.isLt
  have hf := f.isLt
  rw [ofFields, BitVec.toNat_append, BitVec.toNat_append, ← Nat.shiftLeft_add_eq_or_of_lt f.isLt, Nat.shiftLeft_eq,
    Nat.shiftLeft_eq, Nat.mul_comm _ (2 ^ 8), ← Nat.two_pow_add_eq_or_of_lt e.isLt]
  cases s
  · simp
  · simp
    omega

theorem packSubnormal_of_lt (s : Bool) {M : Nat} (h : M < 2 ^ 23) :
    packSubnormal s M = ofFields s 0#8 (BitVec.ofNat 23 M) := by
  apply BitVec.eq_of_toNat_eq
  rw [packSubnormal_toNat s (by omega), ofFields_toNat, BitVec.toNat_ofNat, BitVec.toNat_ofNat, Nat.mod_eq_of_lt h]
  simp

theorem sgn_packSubnormal (s : Bool) (M : Nat) : sgn (packSubnormal s M) = s := by
  simp only [sgn, packSubnormal, BitVec.getLsbD_append]
  simp

theorem isFinite_packSubnormal (s : Bool) {M : Nat} (h : M ≤ 2 ^ 23) : isFinite (packSubnormal s M) = true := by
  apply isFinite_of_expf
  obtain rfl | hlt := h.eq_or_lt
  · rw [packSubnormal_smallestNormal, expf_ofFields]
    decide
  · rw [packSubnormal_of_lt s hlt, expf_ofFields]
    decide

/-- Subnormal precision counts units of 2^-149, up to the smallest normal. -/
theorem val_packSubnormal (s : Bool) {M : Nat} (h : M ≤ 2 ^ 23) :
    val (packSubnormal s M) = signFactor s * M * (2 : ℚ) ^ (-149 : ℤ) := by
  obtain rfl | hlt := h.eq_or_lt
  · rw [packSubnormal_smallestNormal, val_of_normal (by simp) (by simp), sgn_ofFields, expf_ofFields, frac_ofFields]
    norm_num
  · rw [packSubnormal_of_lt s hlt, val_of_subnormal (expf_ofFields _ _ _), sgn_ofFields, frac_ofFields,
      BitVec.toNat_ofNat, Nat.mod_eq_of_lt hlt]

/-! ### The pattern at 24 bits -/

theorem expf_signedZero (s : Bool) : expf (signedZero s) = 0#8 := expf_ofFields _ _ _

theorem expf_signedInf (s : Bool) : expf (signedInf s) = 0xFF#8 := expf_ofFields _ _ _

@[simp] theorem isFinite_signedInf (s : Bool) : isFinite (signedInf s) = false := by simp [isFinite, isInf]

section Packing

variable (s : Bool) {M : Nat} {e : Int}

/-- Without a carry. -/
theorem packRounded_of_ne (hM : M ≠ 2 ^ 24) : packRounded s M e =
    if 255 ≤ e + 127 then signedInf s else if e + 127 ≤ 0 then signedZero s
    else ofFields s (BitVec.ofInt 8 (e + 127)) (BitVec.ofNat 23 (M - 2 ^ 23)) := by
  have hcarry : (M == 2 ^ 24) = false := beq_false_of_ne hM
  simp only [packRounded, hcarry, Bool.false_eq_true, if_false]

theorem packRounded_of_overflow (hM : M ≠ 2 ^ 24) (he : 128 ≤ e) : packRounded s M e = signedInf s := by
  rw [packRounded_of_ne s hM, if_pos (by omega)]

theorem packRounded_of_underflow (hM : M ≠ 2 ^ 24) (he : e ≤ -127) : packRounded s M e = signedZero s := by
  rw [packRounded_of_ne s hM, if_neg (by omega), if_pos (by omega)]

theorem packRounded_of_normal (hM : M ≠ 2 ^ 24) (hlow : -126 ≤ e) (hhigh : e ≤ 127) :
    packRounded s M e = ofFields s (BitVec.ofInt 8 (e + 127)) (BitVec.ofNat 23 (M - 2 ^ 23)) := by
  rw [packRounded_of_ne s hM, if_neg (by omega), if_neg (by omega)]

theorem toNat_biasedExponent (hlow : -126 ≤ e) (hhigh : e ≤ 127) :
    ((BitVec.ofInt 8 (e + 127)).toNat : ℤ) = e + 127 := by
  rw [BitVec.toNat_ofInt]
  omega

theorem biasedExponent_ne (hlow : -126 ≤ e) (hhigh : e ≤ 127) :
    BitVec.ofInt 8 (e + 127) ≠ 0#8 ∧ BitVec.ofInt 8 (e + 127) ≠ 0xFF#8 := by
  have hE := toNat_biasedExponent hlow hhigh
  constructor
  · intro h
    rw [h, BitVec.toNat_ofNat] at hE
    omega
  · intro h
    rw [h, BitVec.toNat_ofNat] at hE
    omega

theorem sgn_packRounded (M : Nat) (e : Int) : sgn (packRounded s M e) = s := by
  obtain hz | hz | ⟨E, -, -, f, hz⟩ := packRounded_cases s M e
  · rw [hz, signedInf, sgn_ofFields]
  · rw [hz, signedZero, sgn_ofFields]
  · rw [hz, sgn_ofFields]

theorem packRounded_eq_signedInf_iff_of_ne (hM : M ≠ 2 ^ 24) : packRounded s M e = signedInf s ↔ 128 ≤ e := by
  refine ⟨fun h => ?_, packRounded_of_overflow s hM⟩
  by_contra hover
  obtain hunder | hlow := le_or_gt e (-127)
  · rw [packRounded_of_underflow s hM hunder] at h
    simpa [expf_signedZero, expf_signedInf] using congrArg expf h
  · obtain ⟨-, hne⟩ := biasedExponent_ne (e := e) (by omega) (by omega)
    rw [packRounded_of_normal s hM (by omega) (by omega)] at h
    exact hne (by simpa [expf_signedInf] using congrArg expf h)

/-- Packing overflows from exponent 128 on, where a carry reaches it from 127. -/
theorem packRounded_eq_signedInf_iff (hM : M ≤ 2 ^ 24) :
    packRounded s M e = signedInf s ↔ 128 ≤ e ∨ e = 127 ∧ M = 2 ^ 24 := by
  obtain rfl | hlt := hM.eq_or_lt
  · rw [packRounded_carry, packRounded_eq_signedInf_iff_of_ne s (by decide)]
    omega
  · rw [packRounded_eq_signedInf_iff_of_ne s hlt.ne]
    omega

theorem val_packRounded_of_ne (hM : M ≠ 2 ^ 24) (hM0 : 2 ^ 23 ≤ M) (hM1 : M < 2 ^ 24) (he : -126 ≤ e)
    (hfin : isFinite (packRounded s M e) = true) :
    val (packRounded s M e) = signFactor s * M * (2 : ℚ) ^ (e - 23) := by
  obtain hover | hhigh := le_or_gt 128 e
  · simp [packRounded_of_overflow s hM hover] at hfin
  have hE := toNat_biasedExponent (e := e) (by omega) (by omega)
  obtain ⟨hne0, hne1⟩ := biasedExponent_ne (e := e) (by omega) (by omega)
  have hf : ((BitVec.ofNat 23 (M - 2 ^ 23)).toNat : ℚ) = M - 2 ^ 23 := by
    rw [BitVec.toNat_ofNat, Nat.mod_eq_of_lt (by omega), Nat.cast_sub hM0]
    norm_num
  rw [packRounded_of_normal s hM (by omega) (by omega), val_of_normal (by simpa using hne0) (by simpa using hne1),
    sgn_ofFields, expf_ofFields, frac_ofFields, hE, hf]
  congr 2
  · ring
  · ring

/-- A finite pattern packed from a significand at a normal exponent has its value, carried or not. -/
theorem val_packRounded (hM0 : 2 ^ 23 ≤ M) (hM1 : M ≤ 2 ^ 24) (he : -126 ≤ e)
    (hfin : isFinite (packRounded s M e) = true) :
    val (packRounded s M e) = signFactor s * M * (2 : ℚ) ^ (e - 23) := by
  obtain rfl | hlt := hM1.eq_or_lt
  · rw [packRounded_carry] at hfin ⊢
    rw [val_packRounded_of_ne s (by decide) le_rfl (by decide) (by omega) hfin, add_sub_right_comm,
      zpow_add_one₀ two_ne_zero]
    push_cast
    ring
  · exact val_packRounded_of_ne s hlt.ne hM0 hlt he hfin

end Packing

/-- Settles O57: each thing that packing can give is put together with the sign it is handed. -/
theorem packingKeepsTheSign : Obligations.PackingKeepsTheSign := by
  intro uf m s v
  obtain ⟨-, -, hz⟩ | ⟨-, hz⟩ := roundPack_cases uf m s v
  · rw [hz, sgn_packSubnormal]
  · rw [hz, sgn_packRounded]

/-! ### When rounding reaches the next integer -/

/-- Below an even integer, rounding reaches it only in RNE, from half a unit below it on. -/
theorem roundExact_eq_iff_of_lt {m : Rounding} {w : ℚ} {n : ℤ} (heven : n % 2 = 0) (hlt : w < n) :
    roundExact m w = n ↔ m = .nearestEven ∧ (n : ℚ) - 1 / 2 ≤ w := by
  have hfloor : ⌊w⌋ < n := Int.floor_lt.mpr hlt
  have hle : (⌊w⌋ : ℚ) ≤ w := Int.floor_le w
  cases m with
  | towardZero => simp [roundExact, hfloor.ne]
  | nearestEven =>
    simp only [true_and]
    constructor
    · intro hr
      by_cases hup : RoundsUp w
      · rw [roundExact_of_roundsUp hup] at hr
        have hcast : (⌊w⌋ : ℚ) + 1 = n := by exact_mod_cast hr
        obtain habove | ⟨hhalf, -⟩ := hup <;> linarith
      · rw [roundExact_of_not_roundsUp hup] at hr
        omega
    · intro hhalf
      have hprev : ⌊w⌋ = n - 1 := Int.floor_eq_iff.mpr ⟨by push_cast; linarith, by push_cast; linarith⟩
      have hcast : (⌊w⌋ : ℚ) = n - 1 := by rw [hprev]; push_cast; ring
      have hup : RoundsUp w := by
        obtain hhalf' | habove := (show 1 / 2 ≤ w - ⌊w⌋ by linarith).eq_or_lt
        · exact .inr ⟨hhalf'.symm, by omega⟩
        · exact .inl habove
      rw [roundExact_of_roundsUp hup, hprev]
      ring

variable {v : Ratio}

/-- A significand is carried to 2^24 exactly in RNE and from half a unit below 2^24 on. -/
theorem Ratio.significand_eq_carry_iff (hn : 0 < v.num) (hd : 0 < v.den) (m : Rounding) :
    (v.scale (23 - v.floorLog2)).round m = 2 ^ 24 ↔
      m = .nearestEven ∧ (2 : ℚ) ^ 24 - 1 / 2 ≤ (v.num : ℚ) / v.den * 2 ^ (23 - v.floorLog2) := by
  obtain ⟨-, hhigh⟩ := v.floorLog2_spec hn hd
  have hlt := mul_zpow_lt_zpow_add hhigh (23 - v.floorLog2)
  rw [show v.floorLog2 + 1 + (23 - v.floorLog2) = 24 by ring] at hlt
  have hiff := roundExact_eq_iff_of_lt (m := m) (n := 2 ^ 24) (by norm_num) (by exact_mod_cast hlt)
  rw [← v.scale_round hd] at hiff
  exact_mod_cast hiff

/-! ### Overflow -/

/-- Packing gives an infinity from exponent 128 on, and by a carry at exponent 127. -/
theorem roundPack_eq_signedInf_iff (hn : 0 < v.num) (hd : 0 < v.den) (uf : Underflow) (m : Rounding) (s : Bool) :
    roundPack uf m s v = signedInf s ↔
      128 ≤ v.floorLog2 ∨ v.floorLog2 = 127 ∧ m = .nearestEven ∧
        ((2 : ℚ) ^ 24 - 1 / 2) * 2 ^ 104 ≤ (v.num : ℚ) / v.den := by
  obtain ⟨he, -, hz⟩ | ⟨-, hz⟩ := roundPack_cases uf m s v
  · have hfin := isFinite_packSubnormal s (v.subnormal_significand_le hn hd he m)
    have hne : packSubnormal s ((v.scale 149).round m) ≠ signedInf s := fun h => by simp [h] at hfin
    rw [hz]
    refine iff_of_false hne ?_
    omega
  · obtain ⟨-, hM⟩ := v.significand_bounds hn hd m
    rw [hz, packRounded_eq_signedInf_iff s hM, v.significand_eq_carry_iff hn hd]
    refine or_congr_right (and_congr_right fun he => and_congr_right fun _ => ?_)
    rw [he, show (23 : ℤ) - 127 = -(104 : ℕ) by norm_num, zpow_neg, zpow_natCast, ← div_eq_mul_inv,
      le_div_iff₀ (by positivity)]

/-- A bound on the exponent is a bound on the value. -/
theorem Ratio.le_floorLog2_iff (hn : 0 < v.num) (hd : 0 < v.den) (k : ℤ) :
    k ≤ v.floorLog2 ↔ (2 : ℚ) ^ k ≤ (v.num : ℚ) / v.den := by
  obtain ⟨hlow, hhigh⟩ := v.floorLog2_spec hn hd
  constructor
  · exact fun h => (zpow_le_zpow_right₀ one_le_two h).trans hlow
  · intro h
    have := (zpow_lt_zpow_iff_right₀ one_lt_two).mp (h.trans_lt hhigh)
    omega

/-- Settles O37: below 2^127 no carry overflows, from 2^128 on every value does, and between them RNE's carry decides. -/
theorem overflowThresholds : Obligations.OverflowThresholds := by
  intro uf s v hn hd
  have h127 : 127 ≤ v.floorLog2 ↔ (2 : ℚ) ^ 127 ≤ (v.num : ℚ) / v.den := v.le_floorLog2_iff hn hd 127
  have h128 : 128 ≤ v.floorLog2 ↔ (2 : ℚ) ^ 128 ≤ (v.num : ℚ) / v.den := v.le_floorLog2_iff hn hd 128
  have hlow : (2 : ℚ) ^ 127 ≤ (2 ^ 24 - 1 / 2) * 2 ^ 104 := by norm_num
  have hhigh : ((2 : ℚ) ^ 24 - 1 / 2) * 2 ^ 104 ≤ 2 ^ 128 := by norm_num
  rw [roundPack_eq_signedInf_iff hn hd, roundPack_eq_signedInf_iff hn hd]
  constructor
  · constructor
    · rintro (hover | ⟨-, -, hcarry⟩)
      · exact hhigh.trans (h128.mp hover)
      · exact hcarry
    · intro hcarry
      have := h127.mpr (hlow.trans hcarry)
      obtain hover | hexp := (show 128 ≤ v.floorLog2 ∨ v.floorLog2 = 127 by omega)
      · exact .inl hover
      · exact .inr ⟨hexp, rfl, hcarry⟩
  · simp only [reduceCtorEq, false_and, and_false, or_false, h128]

/-! ### Flushing -/

/-- A carry at exponent -127 is the smallest normal, to which subnormal precision rounds too. -/
theorem flushed_carry_eq_gradual (hn : 0 < v.num) (hd : 0 < v.den) (m : Rounding) (s : Bool) (he : v.floorLog2 = -127)
    (hM : (v.scale (23 - v.floorLog2)).round m = 2 ^ 24) :
    packRounded s (2 ^ 24) v.floorLog2 = packSubnormal s ((v.scale 149).round m) := by
  obtain ⟨-, hhigh⟩ := v.floorLog2_spec hn hd
  obtain ⟨hm, hhalf⟩ := (v.significand_eq_carry_iff hn hd m).mp hM
  rw [he] at hhigh hhalf
  have hlt := mul_zpow_lt_zpow_add hhigh 149
  have hdouble : (v.num : ℚ) / v.den * 2 ^ (23 - -127 : ℤ) = 2 * ((v.num : ℚ) / v.den * 2 ^ (149 : ℤ)) := by
    rw [show (23 - -127 : ℤ) = 149 + 1 by norm_num, zpow_add_one₀ two_ne_zero]
    ring
  have hround : roundExact m ((v.num : ℚ) / v.den * 2 ^ (149 : ℤ)) = 2 ^ 23 := by
    refine (roundExact_eq_iff_of_lt (by norm_num) (by exact_mod_cast hlt)).mpr ⟨hm, ?_⟩
    rw [hdouble] at hhalf
    push_cast
    linarith
  rw [← v.scale_round hd] at hround
  rw [show (v.scale 149).round m = 2 ^ 23 by exact_mod_cast hround, packSubnormal_smallestNormal, he]
  cases s <;> rfl

/-- Settles O38: the settings part below exponent -126, but for a carry to the smallest normal. -/
theorem flushDiffersOnlyBelowTheNormalRange : Obligations.FlushDiffersOnlyBelowTheNormalRange := by
  intro m s v hn hd hdiff
  obtain ⟨-, hgrad, -⟩ | ⟨-, hflush⟩ := roundPack_cases .flushToZero m s v
  · cases hgrad
  obtain ⟨he, -, hgrad⟩ | ⟨-, hgrad⟩ := roundPack_cases .gradual m s v
  case inr => exact absurd (hflush.trans hgrad.symm) hdiff
  rw [hflush, hgrad] at hdiff ⊢
  have hzero : packRounded s ((v.scale (23 - v.floorLog2)).round m) v.floorLog2 = signedZero s := by
    by_cases hM : (v.scale (23 - v.floorLog2)).round m = 2 ^ 24
    · have hne : v.floorLog2 ≠ -127 := fun he =>
        hdiff (by rw [hM]; exact flushed_carry_eq_gradual hn hd m s he hM)
      rw [hM, packRounded_carry]
      exact packRounded_of_underflow s (by decide) (by omega)
    · exact packRounded_of_underflow s hM (by omega)
  refine ⟨hzero, ?_⟩
  rw [hzero] at hdiff
  obtain hM | hM := (v.subnormal_significand_le hn hd he m).eq_or_lt
  · exact .inr (by rw [hM, packSubnormal_smallestNormal])
  · left
    have hfrac : BitVec.ofNat 23 ((v.scale 149).round m) ≠ 0#23 := by
      intro h
      have h0 := congrArg BitVec.toNat h
      rw [BitVec.toNat_ofNat, Nat.mod_eq_of_lt hM, BitVec.toNat_ofNat, Nat.zero_mod] at h0
      exact hdiff (by rw [h0, packSubnormal_zero])
    rw [packSubnormal_of_lt s hM, classify_of_subnormal (expf_ofFields _ _ _) (by rwa [frac_ofFields]), sgn_ofFields]
    exact ⟨_, rfl⟩

/-! ### RNE gives a nearest value -/

/-- RNE rounds to an integer at the distance of a nearest one. -/
theorem abs_sub_roundExact_le (w : ℚ) (n : ℤ) : |w - roundExact .nearestEven w| ≤ |w - n| := by
  have hmin : |w - roundExact .nearestEven w| = |w - round w| := by
    rw [abs_sub_round_eq_min, Int.fract]
    have hlow := Int.floor_le w
    have hhigh := Int.lt_floor_add_one w
    by_cases hup : RoundsUp w
    · have hhalf : 1 / 2 ≤ w - ⌊w⌋ := hup.elim le_of_lt fun h => h.1.ge
      rw [roundExact_of_roundsUp hup, min_eq_right (by linarith), abs_of_nonpos (by push_cast; linarith)]
      push_cast
      ring
    · have hhalf : w - ⌊w⌋ ≤ 1 / 2 := not_lt.mp fun h => hup (.inl h)
      rw [roundExact_of_not_roundsUp hup, min_eq_left (by linarith), abs_of_nonneg (by linarith)]
  rw [hmin]
  exact round_le w n

theorem val_of_isZero {x : B32} (h : isZero x = true) : val x = 0 := by
  unfold isZero at h
  rw [val]
  cases hc : classify x <;> simp [hc] at h ⊢

/-- From exponent `e` on, values of patterns are whole numbers of units of 2^(e-23). -/
theorem exists_int_of_zpow_le_abs_val {y : B32} {e : ℤ} (hy : isFinite y = true) (h : (2 : ℚ) ^ e ≤ |val y|) :
    ∃ n : ℤ, |val y| * (2 : ℚ) ^ (23 - e) = n := by
  have hzero : isZero y = false := by
    rw [← Bool.not_eq_true]
    intro hz
    rw [val_of_isZero hz, abs_zero] at h
    exact absurd h (not_le.mpr (by positivity))
  obtain ⟨⟨sig, k⟩, hnorm⟩ := Option.isSome_iff_exists.mp ((normalise_isSome_iff y).mpr ⟨hy, hzero⟩)
  obtain ⟨-, hhigh, hval⟩ := (normaliseKeepsTheValue y).2 sig k hnorm
  have hk : e ≤ k := by
    have hsig : (sig : ℚ) < 2 ^ (24 : ℤ) := by exact_mod_cast hhigh
    have hlt : (2 : ℚ) ^ e < 2 ^ (24 + (k - 23)) := h.trans_lt (hval ▸ mul_zpow_lt_zpow_add hsig (k - 23))
    have := (zpow_lt_zpow_iff_right₀ one_lt_two).mp hlt
    omega
  refine ⟨sig * 2 ^ (k - e).toNat, ?_⟩
  rw [hval, mul_assoc, ← zpow_add₀ two_ne_zero, show k - 23 + (23 - e) = ((k - e).toNat : ℤ) by omega]
  push_cast
  rw [zpow_natCast]

/-- Below exponent -126, no pattern is nearer to a magnitude than what it rounds to in units of 2^-149. -/
theorem abs_sub_roundExact_le_of_subnormal (q : ℚ) (y : B32) :
    |q * (2 : ℚ) ^ (149 : ℤ) - roundExact .nearestEven (q * (2 : ℚ) ^ (149 : ℤ))| ≤
      |q * (2 : ℚ) ^ (149 : ℤ) - |val y| * (2 : ℚ) ^ (149 : ℤ)| := by
  have hgrid : |val y| * (2 : ℚ) ^ (149 : ℤ) = (unitsAbs y : ℤ) := by
    rw [abs_val_eq_unitsAbs, mul_assoc, ← zpow_add₀ two_ne_zero]
    simp
  rw [hgrid]
  exact abs_sub_roundExact_le _ _

/-- At exponent `e`, no pattern is nearer to a magnitude than what it rounds to in units of 2^(e-23): a pattern below
2^e is farther than 2^e is. -/
theorem abs_sub_roundExact_le_of_normal {q : ℚ} {e : ℤ} {y : B32} (hlow : (2 : ℚ) ^ e ≤ q) (hy : isFinite y = true) :
    |q * (2 : ℚ) ^ (23 - e) - roundExact .nearestEven (q * (2 : ℚ) ^ (23 - e))| ≤
      |q * (2 : ℚ) ^ (23 - e) - |val y| * (2 : ℚ) ^ (23 - e)| := by
  obtain hval | hval := le_or_gt ((2 : ℚ) ^ e) |val y|
  · obtain ⟨n, hgrid⟩ := exists_int_of_zpow_le_abs_val hy hval
    rw [hgrid]
    exact abs_sub_roundExact_le _ _
  · have hq := zpow_add_le_mul_zpow hlow (23 - e)
    have hv := mul_zpow_lt_zpow_add hval (23 - e)
    rw [add_sub_cancel] at hq hv
    refine (abs_sub_roundExact_le _ (2 ^ 23)).trans ?_
    rw [abs_of_nonneg (by push_cast; exact sub_nonneg.mpr hq), abs_of_nonneg (by linarith)]
    push_cast
    exact sub_le_sub_left hv.le _

/-- A pattern of the exact value's sign that is nearest on a scaled grid of magnitudes is nearest. -/
theorem abs_signed_sub_le {s : Bool} {q r Y : ℚ} {k : ℤ} (hq : 0 ≤ q)
    (h : |q * (2 : ℚ) ^ k - r| ≤ |q * (2 : ℚ) ^ k - |Y| * (2 : ℚ) ^ k|) :
    |signFactor s * q - signFactor s * r * (2 : ℚ) ^ (-k)| ≤ |signFactor s * q - Y| := by
  have hpos : (0 : ℚ) < 2 ^ k := zpow_pos two_pos k
  have hr : r = r * 2 ^ (-k) * 2 ^ k := by rw [mul_assoc, ← zpow_add₀ two_ne_zero, neg_add_cancel, zpow_zero, mul_one]
  rw [hr, ← sub_mul, ← sub_mul, abs_mul, abs_mul, mul_le_mul_iff_left₀ (abs_pos.mpr hpos.ne')] at h
  calc |signFactor s * q - signFactor s * r * (2 : ℚ) ^ (-k)| = |q - r * 2 ^ (-k)| := by
        rw [mul_assoc, ← mul_sub, abs_mul, abs_signFactor, one_mul]
    _ ≤ |q - (|Y|)| := h
    _ ≤ |signFactor s * q - Y| := by
        simpa [abs_mul, abs_signFactor, abs_of_nonneg hq] using
          abs_abs_sub_abs_le_abs_sub (signFactor s * q) Y

/-- As `Ratio.scale_round`, over the rationals. -/
theorem Ratio.cast_scale_round (hd : 0 < v.den) (k : ℤ) (m : Rounding) :
    ((v.scale k).round m : ℚ) = (roundExact m ((v.num : ℚ) / v.den * (2 : ℚ) ^ k) : ℤ) := by
  rw [← v.scale_round hd, Int.cast_natCast]

/-- Settles O36: a finite result has its rounded significand's value, and no pattern is nearer on that grid. -/
theorem gradualResultIsNearest : Obligations.GradualResultIsNearest := by
  intro s v y hn hd hfin hy
  have hq : (0 : ℚ) ≤ (v.num : ℚ) / v.den := by positivity
  obtain ⟨hlow, -⟩ := v.floorLog2_spec hn hd
  obtain ⟨he, -, hz⟩ | ⟨hcase, hz⟩ := roundPack_cases .gradual .nearestEven s v
  · rw [hz, val_packSubnormal s (v.subnormal_significand_le hn hd he _), v.cast_scale_round hd]
    exact abs_signed_sub_le hq (abs_sub_roundExact_le_of_subnormal _ y)
  · obtain ⟨hM0, hM1⟩ := v.significand_bounds hn hd .nearestEven
    have he : -126 ≤ v.floorLog2 := by simpa using hcase
    rw [hz] at hfin
    rw [hz, val_packRounded s hM0 hM1 he hfin, v.cast_scale_round hd, ← neg_sub 23 v.floorLog2]
    exact abs_signed_sub_le hq (abs_sub_roundExact_le_of_normal hlow hy)

end Sys2Proof.Machine
end

section
/-! PROOF. Binary32 add, subtract, multiply and divide (43_float_arith.md R190 to R204). Each branch of an operation's
special cases is the rule's; the last one packs the exact result, counted in the machine's units. -/

namespace Sys2Proof.Machine

/-! ### A NaN operand -/

section NaN

variable {a b : B32} (h : isNaN a = true ∨ isNaN b = true)

include h

theorem floatAdd_of_nan (uf : Underflow) (nan : B32) : floatAdd uf nan a b = nan := if_pos h

theorem floatSub_of_nan (uf : Underflow) (nan : B32) : floatSub uf nan a b = nan := if_pos h

theorem floatMul_of_nan (uf : Underflow) (nan : B32) : floatMul uf nan a b = nan := if_pos h

theorem floatDiv_of_nan (uf : Underflow) (m : Rounding) (nan : B32) : floatDiv uf m nan a b = nan := if_pos h

end NaN

section Completion

variable (s : State)

theorem responds_fadd : Responds .fadd s (toPort (floatAdd Config.underflow
    (qnan 0x0028#16 (lowBits 32 s.a) (lowBits 32 s.b)) (lowBits 32 s.a) (lowBits 32 s.b))) 0#64 :=
  (responds_iff_results .fadd s _ _).mpr ⟨rfl, rfl⟩

theorem responds_fsub : Responds .fsub s (toPort (floatSub Config.underflow
    (qnan 0x0029#16 (lowBits 32 s.a) (lowBits 32 s.b)) (lowBits 32 s.a) (lowBits 32 s.b))) 0#64 :=
  (responds_iff_results .fsub s _ _).mpr ⟨rfl, rfl⟩

theorem responds_fmul : Responds .fmul s (toPort (floatMul Config.underflow
    (qnan 0x002A#16 (lowBits 32 s.a) (lowBits 32 s.b)) (lowBits 32 s.a) (lowBits 32 s.b))) 0#64 :=
  (responds_iff_results .fmul s _ _).mpr ⟨rfl, rfl⟩

theorem responds_fdiv : Responds .fdiv s (toPort (floatDiv Config.underflow Config.fdivRound
    (qnan 0x002B#16 (lowBits 32 s.a) (lowBits 32 s.b)) (lowBits 32 s.a) (lowBits 32 s.b))) 0#64 :=
  (responds_iff_results .fdiv s _ _).mpr ⟨rfl, rfl⟩

end Completion

/-- Settles O40: the NaN check is the first branch of each operation. -/
theorem nanOperandDecidesFirst : Obligations.NaNOperandDecidesFirst := by
  intro i s hi h
  fin_cases hi
  · exact (responds_iff_results .fadd s _ _).mpr ⟨congrArg toPort (floatAdd_of_nan h _ _).symm, rfl⟩
  · exact (responds_iff_results .fsub s _ _).mpr ⟨congrArg toPort (floatSub_of_nan h _ _).symm, rfl⟩
  · exact (responds_iff_results .fmul s _ _).mpr ⟨congrArg toPort (floatMul_of_nan h _ _).symm, rfl⟩
  · exact (responds_iff_results .fdiv s _ _).mpr ⟨congrArg toPort (floatDiv_of_nan h _ _ _).symm, rfl⟩

/-! ### The exact results -/

/-- Packing follows the rule at a value that the fraction stands for. -/
theorem roundPacked_roundPack (uf : Underflow) (m : Rounding) (s : Bool) {v : Ratio} {q : ℚ} (hn : 0 < v.num)
    (hd : 0 < v.den) (hq : (v.num : ℚ) / v.den = q) : RoundPacked uf m s q (roundPack uf m s v) :=
  hq ▸ packingFollowsTheRule uf m s v hn hd

theorem units_add_units (a b : B32) : val a + val b = ((units a + units b : ℤ) : ℚ) * (2 : ℚ) ^ (-149 : ℤ) := by
  rw [val_eq_units, val_eq_units, Int.cast_add, add_mul]

theorem val_add_eq_zero_iff (a b : B32) : val a + val b = 0 ↔ units a + units b = 0 := by
  have hpos : (0 : ℚ) < 2 ^ (-149 : ℤ) := zpow_pos two_pos _
  rw [units_add_units, mul_eq_zero_iff_right hpos.ne', Int.cast_eq_zero]

theorem val_add_neg_iff (a b : B32) : val a + val b < 0 ↔ units a + units b < 0 := by
  have hpos : (0 : ℚ) < 2 ^ (-149 : ℤ) := zpow_pos two_pos _
  rw [units_add_units, ← Int.cast_lt_zero (R := ℚ)]
  exact ⟨fun h => neg_of_mul_neg_left h hpos.le, fun h => mul_neg_of_neg_of_pos h hpos⟩

/-- The fraction that addition packs is the magnitude of the exact sum. -/
theorem sum_value (a b : B32) : ((Ratio.ofUnits (units a + units b).natAbs).num : ℚ) /
    (Ratio.ofUnits (units a + units b).natAbs).den = |val a + val b| := by
  rw [units_add_units, abs_mul, abs_of_pos (zpow_pos two_pos (-149) : (0 : ℚ) < _), zpow_neg, ← div_eq_mul_inv,
    Ratio.ofUnits, Nat.cast_natAbs, Int.cast_abs]
  norm_num

/-- The fraction that multiplication packs is the magnitude of the exact product. -/
theorem product_value (a b : B32) :
    ((unitsAbs a * unitsAbs b : ℕ) : ℚ) / (2 ^ 149 * 2 ^ 149 : ℕ) = |val a * val b| := by
  rw [abs_mul, abs_val_eq_unitsAbs, abs_val_eq_unitsAbs, zpow_neg]
  push_cast
  ring

/-- The fraction that division packs is the magnitude of the exact quotient. -/
theorem quotient_value (a b : B32) : (unitsAbs a : ℚ) / unitsAbs b = |val a / val b| := by
  rw [abs_div, abs_val_eq_unitsAbs, abs_val_eq_unitsAbs, mul_div_mul_right _ _ (zpow_ne_zero _ two_ne_zero)]

/-- Addition after its NaN check is the rule's. -/
theorem sumRule_addBody (uf : Underflow) (nan a b : B32) : SumRule uf nan a b (addBody uf nan a b) := by
  simp only [SumRule, addBody, val_add_eq_zero_iff, val_add_neg_iff]
  split_ifs with hinf hia hib hzz hza hzb hsum
  · rfl
  · rfl
  · rfl
  · rfl
  · rfl
  · rfl
  · rfl
  · exact roundPacked_roundPack _ _ _ (Int.natAbs_pos.mpr hsum) (by simp [Ratio.ofUnits]) (sum_value a b)

/-- Multiplication is the rule's. -/
theorem productRule_floatMul (uf : Underflow) (nan a b : B32) : ProductRule uf nan a b (floatMul uf nan a b) := by
  simp only [ProductRule, floatMul]
  split_ifs with hnan hinv hinf hzero
  · rfl
  · rfl
  · rfl
  · rfl
  · obtain ⟨hna, hnb⟩ := not_or.mp hnan
    obtain ⟨hia, hib⟩ := not_or.mp hinf
    obtain ⟨hza, hzb⟩ := not_or.mp hzero
    exact roundPacked_roundPack _ _ _
      (Nat.mul_pos (unitsAbs_pos_of_not hna hia hza) (unitsAbs_pos_of_not hnb hib hzb)) (by simp) (product_value a b)

/-- Division is the rule's. -/
theorem quotientRule_floatDiv (uf : Underflow) (m : Rounding) (nan a b : B32) :
    QuotientRule uf m nan a b (floatDiv uf m nan a b) := by
  simp only [QuotientRule, floatDiv]
  split_ifs with hnan hinf hia hib hzz hzb hza
  · rfl
  · rfl
  · rfl
  · rfl
  · rfl
  · rfl
  · rfl
  · obtain ⟨hna, hnb⟩ := not_or.mp hnan
    exact roundPacked_roundPack _ _ _ (unitsAbs_pos_of_not hna hia hza) (unitsAbs_pos_of_not hnb hib hzb)
      (quotient_value a b)

/-- Settles O41: the NaN check, then `sumRule_addBody`. -/
theorem addGivesTheRoundedSum : Obligations.AddGivesTheRoundedSum := by
  refine ⟨rfl, fun s => ⟨_, responds_fadd s, ?_⟩⟩
  split_ifs with hnan
  · exact floatAdd_of_nan hnan _ _
  · rw [floatAdd, if_neg hnan]
    exact sumRule_addBody _ _ _ _

/-- Settles O42: the NaN check, then `sumRule_addBody` on the negated operand. -/
theorem subtractAddsTheNegatedOperand : Obligations.SubtractAddsTheNegatedOperand := by
  refine ⟨rfl, fun s => ⟨_, responds_fsub s, ?_⟩⟩
  split_ifs with hnan
  · exact floatSub_of_nan hnan _ _
  · rw [floatSub, if_neg hnan]
    exact sumRule_addBody _ _ _ _

/-- Settles O43: FMUL drives the product of `productRule_floatMul`. -/
theorem multiplyGivesTheRoundedProduct : Obligations.MultiplyGivesTheRoundedProduct :=
  ⟨rfl, fun s => ⟨_, responds_fmul s, productRule_floatMul _ _ _ _⟩⟩

/-- Settles O44: FDIV drives the quotient of `quotientRule_floatDiv`. -/
theorem divideGivesTheRoundedQuotient : Obligations.DivideGivesTheRoundedQuotient :=
  ⟨rfl, fun s => ⟨_, responds_fdiv s, quotientRule_floatDiv _ _ _ _ _⟩⟩

/-- 1.0 / 3.0 in each mode, under either setting of `UNDERFLOW` and with any NaN handed to it. -/
theorem floatDiv_one_three (uf : Underflow) (m : Rounding) (nan : B32) : floatDiv uf m nan 0x3F800000#32 0x40400000#32 =
    match m with
    | .nearestEven => 0x3EAAAAAB#32
    | .towardZero => 0x3EAAAAAA#32 := by
  cases uf <;> cases m <;> rfl

/-- Settles O45: the quotient of the two constants, computed. -/
theorem oneThirdInBothModes : Obligations.OneThirdInBothModes := by
  intro s ha hb
  have h := responds_fdiv s
  rw [ha, hb, floatDiv_one_three] at h
  cases hm : Config.fdivRound <;> rw [hm] at h <;> exact h

end Sys2Proof.Machine
end

section
/-! PROOF. Conversions (44_conversions.md R230, R234 to R237). An integer's exponent is the length of the integer, so it is
never below the normal range; with at most 24 significant bits it is its own significand, and nothing is rounded on the
way to binary32 or back. -/

namespace Sys2Proof.Machine

/-! ### The exponent -/

/-- The powers of two around a magnitude determine its exponent. -/
theorem Ratio.floorLog2_eq {v : Ratio} (hn : 0 < v.num) (hd : 0 < v.den) {e : ℤ}
    (hlow : (2 : ℚ) ^ e ≤ (v.num : ℚ) / v.den) (hhigh : (v.num : ℚ) / v.den < (2 : ℚ) ^ (e + 1)) :
    v.floorLog2 = e := by
  have hle := (v.le_floorLog2_iff hn hd e).mpr hlow
  have hlt := mt (v.le_floorLog2_iff hn hd (e + 1)).mp hhigh.not_ge
  omega

variable {n : Nat}

theorem floorLog2_natCast (hn : n ≠ 0) : Ratio.floorLog2 { num := n, den := 1 } = Nat.log2 n := by
  obtain ⟨hlow, hhigh⟩ := log2_bounds (Nat.pos_of_ne_zero hn)
  exact Ratio.floorLog2_eq (Nat.pos_of_ne_zero hn) Nat.one_pos (by simpa using hlow) (by simpa using hhigh)

/-- An integer is packed at 24 bits under either setting of `UNDERFLOW`. -/
theorem intToFloat_eq_packRounded (uf : Underflow) (s : Bool) (hn : n ≠ 0) : intToFloat uf s n =
    packRounded s ((Ratio.scale { num := n, den := 1 } (23 - Nat.log2 n)).round .nearestEven) (Nat.log2 n) := by
  rw [intToFloat, if_neg hn, ← floorLog2_natCast hn]
  obtain ⟨he, -, -⟩ | ⟨-, hz⟩ := roundPack_cases uf .nearestEven s { num := n, den := 1 }
  · rw [floorLog2_natCast hn] at he
    omega
  · exact hz

/-! ### Short integers convert exactly -/

@[simp] theorem roundExact_intCast (m : Rounding) (k : ℤ) : roundExact m k = k := by
  cases m <;> simp [roundExact]

/-- Scaled for its exponent, a short integer is whole. -/
theorem FitsSignificand.exists_scaled (h : FitsSignificand n) (hn : n ≠ 0) :
    ∃ M : ℤ, (n : ℚ) * (2 : ℚ) ^ (23 - (Nat.log2 n : ℤ)) = M := by
  obtain ⟨m, k, hm, rfl⟩ := h
  have hlog : Nat.log2 (m * 2 ^ k) < 24 + k := by
    refine (Nat.log2_lt hn).mpr ?_
    rw [pow_add]
    exact Nat.mul_lt_mul_of_pos_right hm (by positivity)
  refine ⟨m * 2 ^ (k + 23 - Nat.log2 (m * 2 ^ k)), ?_⟩
  push_cast
  rw [mul_assoc, ← zpow_natCast, ← zpow_natCast, ← zpow_add₀ two_ne_zero]
  congr 2
  omega

theorem isFinite_packRounded (s : Bool) {M : Nat} {e : Int} (hM : M ≤ 2 ^ 24) (he : e < 127) :
    isFinite (packRounded s M e) = true := by
  have hne : packRounded s M e ≠ signedInf s := by
    rw [ne_eq, packRounded_eq_signedInf_iff s hM]
    omega
  apply isFinite_of_expf
  obtain hz | hz | ⟨E, h1, h254, f, hz⟩ := packRounded_cases s M e
  · exact absurd hz hne
  · rw [hz, expf_signedZero]
    decide
  · rw [hz, expf_ofFields, ← BitVec.toNat_ne_iff_ne, BitVec.toNat_ofInt, BitVec.toNat_ofNat]
    omega

/-- A short integer converts to a finite pattern of exactly its value. -/
theorem isFinite_val_intToFloat (uf : Underflow) (s : Bool) (hlt : n < 2 ^ 32) (h : FitsSignificand n) :
    isFinite (intToFloat uf s n) = true ∧ val (intToFloat uf s n) = signFactor s * n := by
  by_cases hn : n = 0
  · subst hn
    refine ⟨by rw [intToFloat_zero]; decide, ?_⟩
    rw [intToFloat, if_pos rfl, val_signedZero, Nat.cast_zero, mul_zero]
  have hd : 0 < (Ratio.mk n 1).den := Nat.one_pos
  have hlog : Nat.log2 n < 32 := (Nat.log2_lt hn).mpr hlt
  obtain ⟨M, hM⟩ := h.exists_scaled hn
  have hround := Ratio.cast_scale_round hd (23 - Nat.log2 n) .nearestEven
  have hbounds := Ratio.significand_bounds (v := { num := n, den := 1 }) (Nat.pos_of_ne_zero hn) hd .nearestEven
  rw [floorLog2_natCast hn] at hbounds
  rw [Nat.cast_one, div_one, hM, roundExact_intCast, ← hM] at hround
  rw [intToFloat_eq_packRounded uf s hn]
  have hfin := isFinite_packRounded s hbounds.2 (e := Nat.log2 n) (by omega)
  refine ⟨hfin, ?_⟩
  rw [val_packRounded s hbounds.1 hbounds.2 (by omega) hfin, hround, mul_assoc, mul_assoc, ← zpow_add₀ two_ne_zero]
  simp

/-- Settles O50: no integer is below the normal range, and a short one is not rounded. -/
theorem integerConversionIgnoresUnderflow : Obligations.IntegerConversionIgnoresUnderflow := by
  refine fun s n => ⟨?_, fun uf hlt h => ?_⟩
  · by_cases hn : n = 0
    · rw [intToFloat, intToFloat, if_pos hn, if_pos hn]
    · rw [intToFloat_eq_packRounded _ _ hn, intToFloat_eq_packRounded _ _ hn]
  · obtain ⟨-, hval⟩ := isFinite_val_intToFloat uf s hlt h
    rw [hval]
    split_ifs with hn
    · rw [hn, Nat.cast_zero, mul_zero]
    · rfl

/-! ### Binary32 to integers -/

theorem responds_ftoiU32 (s : State) : Responds .ftoiU32 s
    (toPort (floatToInt (Config.ftoiOob 0x002F#16 (lowBits 32 s.a)) 0 (2 ^ 32 - 1) (lowBits 32 s.a))) 0#64 :=
  (responds_iff_results .ftoiU32 s _ _).mpr ⟨rfl, rfl⟩

theorem responds_ftoiS32 (s : State) : Responds .ftoiS32 s
    (toPort (floatToInt (Config.ftoiOob 0x006F#16 (lowBits 32 s.a)) (-2 ^ 31) (2 ^ 31 - 1) (lowBits 32 s.a))) 0#64 :=
  (responds_iff_results .ftoiS32 s _ _).mpr ⟨rfl, rfl⟩

/-- The conversion is the rule's, its truncation being that of the exact value. -/
theorem truncRule_floatToInt (oob : B32) (lo hi : Int) (x : B32) : TruncRule oob lo hi x (floatToInt oob lo hi x) := by
  simp only [TruncRule, floatToInt, truncToInt_eq]
  split_ifs <;> rfl

/-- Settles O51: each FTOI converts with its own range and `FTOI_OOB`. -/
theorem floatsTruncateToIntegers : Obligations.FloatsTruncateToIntegers :=
  ⟨rfl, rfl, fun s =>
    ⟨⟨_, responds_ftoiU32 s, truncRule_floatToInt _ _ _ _⟩, ⟨_, responds_ftoiS32 s, truncRule_floatToInt _ _ _ _⟩⟩⟩

/-! ### The round trip -/

@[simp] theorem truncExact_intCast (k : ℤ) : truncExact k = k := by simp [truncExact]

/-- A finite pattern with an integer value in range converts to that integer. -/
theorem floatToInt_of_val {oob : B32} {lo hi k : Int} {x : B32} (hx : isFinite x = true) (hval : val x = k)
    (hlo : lo ≤ k) (hhi : k ≤ hi) : floatToInt oob lo hi x = BitVec.ofInt 32 k := by
  simp only [isFinite, Bool.and_eq_true, Bool.not_eq_true'] at hx
  obtain ⟨hinf, hnan⟩ := hx
  simp [floatToInt, truncToInt_eq, hval, hinf, hnan, hlo, hhi]

/-- A sign and a magnitude put together again. -/
theorem signFactor_mul_natAbs (x : ℤ) : signFactor (decide (x < 0)) * (x.natAbs : ℚ) = x := by
  conv_rhs => rw [eq_signed_natAbs x]
  by_cases h : x < 0 <;> simp [signFactor, h]

theorem fitsSignificand_of_le (h : n ≤ 2 ^ 24) : FitsSignificand n := by
  obtain rfl | hlt := h.eq_or_lt
  · exact ⟨1, 24, by decide, by decide⟩
  · exact ⟨n, 0, hlt, by rw [pow_zero, mul_one]⟩

/-- Settles O52: the pattern has the integer's value, which truncation gives back. -/
theorem roundTripOfShortIntegers : Obligations.RoundTripOfShortIntegers := by
  refine ⟨fun n h s t hs => ?_, fun n h s t hs => ?_, fun n => fitsSignificand_of_le⟩
  · have hlow : -2 ^ 31 ≤ n.toInt := BitVec.le_toInt n
    have hhigh : n.toInt < 2 ^ 31 := BitVec.toInt_lt
    obtain ⟨hfin, hval⟩ := isFinite_val_intToFloat Config.underflow (decide (n.toInt < 0)) (by omega) h
    rw [signFactor_mul_natAbs] at hval
    refine ⟨_, hs ▸ responds_itofS32 s, fun ht => ?_⟩
    have hback := responds_ftoiS32 t
    rwa [ht, floatToInt_of_val hfin hval hlow (by omega), BitVec.ofInt_toInt] at hback
  · have hhigh := n.isLt
    obtain ⟨hfin, hval⟩ := isFinite_val_intToFloat Config.underflow false n.isLt h
    rw [signFactor, if_neg Bool.false_ne_true, one_mul] at hval
    refine ⟨_, hs ▸ responds_itofU32 s, fun ht => ?_⟩
    have hback := responds_ftoiU32 t
    rwa [ht, floatToInt_of_val (k := n.toNat) hfin (by exact_mod_cast hval) (by omega) (by omega),
      BitVec.ofInt_natCast, BitVec.ofNat_toNat, BitVec.setWidth_eq] at hback

end Sys2Proof.Machine
end

section
/-! PROOF. The pseudo-operations (30_encoding.md R68). Each presents its one command to the unit after reset, so its result
is the caller's selection from the response of that operation. -/

namespace Sys2Proof.Machine

/-- Every pseudo-operation expands into a well-formed operation. -/
theorem wellFormed_expand : ∀ p : Pseudo, WellFormed p.expand = true
  | .udiv w | .urem w | .sdiv w | .srem w => by cases w <;> rfl
  | .mullu w => by cases w <;> rfl
  | .compare _ => rfl

/-- The unit with a pseudo-operation's command and operands presented after reset. -/
def Pseudo.presented (p : Pseudo) (a b : Port) : State :=
  State.reset.present { cmd := encode p.expand, a := a, b := b }

variable {a b : Port}

/-- The result is selected from what the operation completes with. -/
theorem Pseudo.result_of_responds {p : Pseudo} {r0 r1 : Port} (h : Responds p.expand (p.presented a b) r0 r1) :
    p.result a b = some (p.select { res0 := r0, res1 := r1, illegal := false }) := by
  have hstep := transact_of_decode (r := { cmd := encode p.expand, a := a, b := b }) State.reset_resetAsserted
    (decode_encode _ (wellFormed_expand p))
  rw [← Pseudo.presented, (responds_iff _ _ _ _).mp h] at hstep
  simp only [Pseudo.result, hstep, State.respond_response, Option.map_some]

theorem divuAt_mem (w : DivideWidth) : divuAt w ∈ [Instr.divu8, .divu16, .divu32, .divu64] := by cases w <;> decide

theorem divsAt_mem (w : DivideWidth) : divsAt w ∈ [Instr.divs8, .divs16, .divs32, .divs64] := by cases w <;> decide

theorem mullAt_mem (w : MultiplyWidth) : mullAt w ∈ [Instr.mull8, .mull16, .mull32] := by cases w <;> decide

/-! ### The relational tests -/

/-- A comparison is asked for its outcome's code. -/
theorem result_compare (rel : Relation) : (Pseudo.compare rel).result a b =
    some ((BitVec.ofBool (rel.test (floatCompare (lowBits 32 a) (lowBits 32 b)).code)).setWidth 64) := by
  rw [Pseudo.result_of_responds ((responds_iff_results _ _ _ _).mpr ⟨rfl, rfl⟩)]
  exact congrArg (fun c => some ((BitVec.ofBool (rel.test c)).setWidth 64)) (lowBits_toPort _ (by decide))

variable {x y : B32}

/-- Of ordered patterns, each of the three relations holds exactly when the outcome is its own. -/
theorem Ordered.relations_iff (h : Ordered x y) :
    (Precedes x y ↔ floatCompare x y = .less) ∧ (SameValue x y ↔ floatCompare x y = .equal) ∧
    (Precedes y x ↔ floatCompare x y = .greater) := by
  have hless := floatCompare_of_precedes h
  have hequal := floatCompare_of_sameValue h
  have hgreater := floatCompare_of_follows h
  have hsome := h.trichotomy
  cases hc : floatCompare x y <;> simp_all

/-- The test of the outcome's code is whether the relation holds. -/
theorem test_code_floatCompare_iff (rel : Relation) :
    rel.test (floatCompare x y).code = true ↔ rel.Holds x y := by
  by_cases h : Ordered x y
  · obtain ⟨hlt, heq, hgt⟩ := h.relations_iff
    have hne : floatCompare x y ≠ .unordered := by
      have hsome := h.trichotomy
      rw [hlt, heq, hgt] at hsome
      intro hc
      simp [hc] at hsome
    cases rel <;> simp only [Relation.Holds, h, hlt, heq, hgt, true_and] <;> revert hne <;>
      cases floatCompare x y <;> decide
  · rw [floatCompare_of_not_ordered h]
    cases rel <;> simp [Relation.test, Relation.Holds, Comparison.code, h]

/-- Settles O48: the selection from each operation's response, whose values its own statement gives. -/
theorem pseudoOperationsMeanWhatTheyName : Obligations.PseudoOperationsMeanWhatTheyName := by
  refine ⟨fun p => decode_encode _ (wellFormed_expand p), fun w a b => ⟨?_, ?_, ?_, ?_⟩, fun w a b => ?_,
    fun rel a b => ⟨fun h => ?_, fun h => ?_⟩⟩
  · exact Pseudo.result_of_responds (unsignedDivides _ ((Pseudo.udiv w).presented a b) (divuAt_mem w))
  · exact Pseudo.result_of_responds (unsignedDivides _ ((Pseudo.urem w).presented a b) (divuAt_mem w))
  · exact Pseudo.result_of_responds (signedDivides _ ((Pseudo.sdiv w).presented a b) (divsAt_mem w))
  · exact Pseudo.result_of_responds (signedDivides _ ((Pseudo.srem w).presented a b) (divsAt_mem w))
  · obtain ⟨-, -, -, hlow⟩ := lowProducts
    exact Pseudo.result_of_responds (hlow _ ((Pseudo.mullu w).presented a b) (mullAt_mem w)).2
  · rw [result_compare, (test_code_floatCompare_iff rel).mpr h]
    rfl
  · rw [result_compare, eq_false_of_ne_true (mt (test_code_floatCompare_iff rel).mp h)]
    rfl

end Sys2Proof.Machine
end

section
/-! PROOF. The accumulator datapaths (43_float_arith.md R199, R203; 44_conversions.md R233). What rounding does depends only on
how twice a value compares with the integers, so a path may put into its accumulator any value that compares alike. The
product, the long division and the integer shift put in the exact one. -/

namespace Sys2Proof.Machine

/-! ### Values that compare alike with the integers -/

/-- `v` and `w` have the same integers below them and the same above. -/
def CompareAlike (v w : ℚ) : Prop := ∀ n : ℤ, ((n : ℚ) ≤ v ↔ (n : ℚ) ≤ w) ∧ (v ≤ n ↔ w ≤ n)

section CompareAlike

variable {v w : ℚ}

theorem CompareAlike.of_eq (h : v = w) : CompareAlike v w := fun _ => by simp [h]

theorem CompareAlike.le_iff (h : CompareAlike v w) (n : ℤ) : (n : ℚ) ≤ v ↔ (n : ℚ) ≤ w := (h n).1

theorem CompareAlike.ge_iff (h : CompareAlike v w) (n : ℤ) : v ≤ n ↔ w ≤ n := (h n).2

theorem CompareAlike.div_nat (h : CompareAlike v w) {d : ℕ} (hd : 0 < d) : CompareAlike (v / d) (w / d) := by
  have hpos : (0 : ℚ) < d := by exact_mod_cast hd
  intro n
  rw [le_div_iff₀ hpos, le_div_iff₀ hpos, div_le_iff₀ hpos, div_le_iff₀ hpos]
  exact_mod_cast h (n * d)

/-- Rounding depends on how twice the value compares with the integers. -/
theorem CompareAlike.roundExact_eq (h : CompareAlike (2 * v) (2 * w)) (m : Rounding) :
    roundExact m v = roundExact m w := by
  have hfloor : ⌊v⌋ = ⌊w⌋ := by
    refine eq_of_forall_le_iff fun n => ?_
    have hn := h.le_iff (2 * n)
    push_cast at hn
    rw [Int.le_floor, Int.le_floor]
    constructor
    · intro hv
      linarith [hn.mp (by linarith)]
    · intro hw
      linarith [hn.mpr (by linarith)]
  have hle := h.le_iff (2 * ⌊w⌋ + 1)
  have hge := h.ge_iff (2 * ⌊w⌋ + 1)
  push_cast at hle hge
  have hbelow : v - ⌊w⌋ < 1 / 2 ↔ w - ⌊w⌋ < 1 / 2 := by
    rw [← not_le, ← not_le]
    refine not_congr ⟨fun hv => ?_, fun hw => ?_⟩
    · linarith [hle.mp (by linarith)]
    · linarith [hle.mpr (by linarith)]
  have habove : 1 / 2 < v - ⌊w⌋ ↔ 1 / 2 < w - ⌊w⌋ := by
    rw [← not_le, ← not_le]
    refine not_congr ⟨fun hv => ?_, fun hw => ?_⟩
    · linarith [hge.mp (by linarith)]
    · linarith [hge.mpr (by linarith)]
  simp only [roundExact, hfloor, hbelow, habove]

end CompareAlike

/-! ### The accumulator -/

/-- Whole quarters held without a rest. -/
theorem Acc.holds_of_quarters (n : ℕ) : Acc.Holds { bits := n, sticky := false } ((n : ℚ) / 4) := by
  have h4 : 4 * ((n : ℚ) / 4) = (n : ℤ) := by push_cast; ring
  constructor
  · rw [h4, Int.floor_intCast]
  · rw [h4, Int.floor_intCast]
    simp

/-- A shift right with the sticky bit divides the value held: the quotient is whole when neither the sticky bit nor a
bit shifted out is set. -/
theorem Acc.Holds.ofShifted {acc : Acc} {v : ℚ} (h : acc.Holds v) (k : ℕ) :
    (Acc.ofShifted acc.bits k acc.sticky).Holds (v / 2 ^ k) := by
  obtain ⟨hbits, hsticky⟩ := h
  have hdiv : 4 * (v / 2 ^ k) = 4 * v / (2 ^ k : ℕ) := by push_cast; ring
  have hfloor : ⌊4 * (v / 2 ^ k)⌋ = (acc.bits / 2 ^ k : ℕ) := by
    rw [hdiv, Int.floor_div_natCast, ← hbits]
    rfl
  refine ⟨by rw [hfloor, Acc.ofShifted, Nat.shiftRight_eq_div_pow], ?_⟩
  rw [hfloor, hdiv, ne_eq, eq_div_iff (by positivity), Acc.ofShifted, Bool.or_eq_true, hsticky, bne_iff_ne, ← hbits]
  by_cases hexact : ((acc.bits : ℤ) : ℚ) = 4 * v
  · rw [← hexact, or_iff_right (not_not.mpr rfl), ne_eq, ← Nat.dvd_iff_mod_eq_zero, Nat.dvd_iff_div_mul_eq]
    exact_mod_cast Iff.rfl
  · refine iff_of_true (.inl hexact) fun hwhole => hexact ?_
    rw [hbits, ← hwhole]
    norm_cast

/-- The natural number shifted is held in quarters. -/
theorem Acc.holds_ofShifted_nat (n k : ℕ) : (Acc.ofShifted n k false).Holds ((n : ℚ) / 4 / 2 ^ k) :=
  (Acc.holds_of_quarters n).ofShifted k

/-- Packing from an accumulator is packing of the value, if what it holds rounds alike. -/
theorem packAcc_eq_roundPack {v : Ratio} {acc : Acc} {w : ℚ} {e : ℤ} (uf : Underflow) (m : Rounding) (s : Bool)
    (hn : 0 < v.num) (hd : 0 < v.den) (hlow : (2 : ℚ) ^ e ≤ (v.num : ℚ) / v.den)
    (hhigh : (v.num : ℚ) / v.den < (2 : ℚ) ^ (e + 1)) (hacc : acc.Holds w)
    (halike : CompareAlike (2 * w) (2 * ((v.num : ℚ) / v.den * (2 : ℚ) ^ (23 - e)))) :
    packAcc uf m s acc e = roundPack uf m s v := by
  have he := Ratio.floorLog2_eq hn hd hlow hhigh
  obtain ⟨hunder, hgrad, hz⟩ | ⟨hcase, hz⟩ := roundPack_cases uf m s v
  · rw [he] at hunder
    have hscale : (v.num : ℚ) / v.den * (2 : ℚ) ^ (149 : ℤ) =
        (v.num : ℚ) / v.den * (2 : ℚ) ^ (23 - e) / 2 ^ (-126 - e).toNat := by
      rw [mul_div_assoc, ← zpow_natCast, ← zpow_sub₀ two_ne_zero]
      congr 2
      omega
    have hhalf := halike.div_nat (d := 2 ^ (-126 - e).toNat) (by positivity)
    push_cast at hhalf
    rw [mul_div_assoc, mul_div_assoc, ← hscale] at hhalf
    have hround : (Acc.ofShifted acc.bits (-126 - e).toNat acc.sticky).rounded m = (v.scale 149).round m := by
      zify
      rw [(hacc.ofShifted _).rounded_eq_roundExact, hhalf.roundExact_eq, v.scale_round hd]
    rw [hz, packAcc, if_pos ⟨hunder, hgrad⟩, hround]
  · rw [he] at hcase hz
    have hround : acc.rounded m = (v.scale (23 - e)).round m := by
      zify
      rw [hacc.rounded_eq_roundExact, halike.roundExact_eq, v.scale_round hd]
    rw [hz, packAcc, if_neg hcase, hround]

/-- As `packAcc_eq_roundPack`, for an accumulator that holds the exact value. -/
theorem packAcc_eq_roundPack_of_holds {v : Ratio} {acc : Acc} {q : ℚ} {e : ℤ} (uf : Underflow) (m : Rounding) (s : Bool)
    (hn : 0 < v.num) (hd : 0 < v.den) (hq : (v.num : ℚ) / v.den = q) (hlow : (2 : ℚ) ^ e ≤ q)
    (hhigh : q < (2 : ℚ) ^ (e + 1)) (hacc : acc.Holds (q * (2 : ℚ) ^ (23 - e))) :
    packAcc uf m s acc e = roundPack uf m s v := by
  subst hq
  exact packAcc_eq_roundPack uf m s hn hd hlow hhigh hacc (.of_eq rfl)

/-! ### Normalised operands -/

section Operands

variable {a b : B32} {x y : Nat × Int} (ha : normalise a = some x) (hb : normalise b = some y)

include ha

/-- A normalised operand meets none of the special cases. -/
theorem finite_of_normalise : isNaN a = false ∧ isInf a = false ∧ isZero a = false := by
  obtain ⟨hfin, hzero⟩ := (normalise_isSome_iff a).mp (by rw [ha]; rfl)
  simp only [isFinite, Bool.and_eq_true, Bool.not_eq_true'] at hfin
  exact ⟨hfin.2, hfin.1, hzero⟩

theorem unitsAbs_pos_of_normalise : 0 < unitsAbs a := by
  obtain ⟨hfin, hzero⟩ := (normalise_isSome_iff a).mp (by rw [ha]; rfl)
  exact unitsAbs_pos a hfin hzero

theorem normalise_bounds : 2 ^ 23 ≤ x.1 ∧ x.1 < 2 ^ 24 := by
  obtain ⟨hlow, hhigh, -⟩ := (normaliseKeepsTheValue a).2 x.1 x.2 ha
  exact ⟨hlow, hhigh⟩

theorem abs_val_of_normalise : |val a| = (x.1 : ℚ) * (2 : ℚ) ^ (x.2 - 23) := by
  obtain ⟨-, -, hval⟩ := (normaliseKeepsTheValue a).2 x.1 x.2 ha
  exact hval

include hb

theorem floatMul_of_normalise (uf : Underflow) (nan : B32) : floatMul uf nan a b =
    roundPack uf .nearestEven (sgn a ^^ sgn b) { num := unitsAbs a * unitsAbs b, den := 2 ^ 149 * 2 ^ 149 } := by
  obtain ⟨hna, hia, hza⟩ := finite_of_normalise ha
  obtain ⟨hnb, hib, hzb⟩ := finite_of_normalise hb
  simp [floatMul, hna, hia, hza, hnb, hib, hzb]

theorem floatDiv_of_normalise (uf : Underflow) (m : Rounding) (nan : B32) : floatDiv uf m nan a b =
    roundPack uf m (sgn a ^^ sgn b) { num := unitsAbs a, den := unitsAbs b } := by
  obtain ⟨hna, hia, hza⟩ := finite_of_normalise ha
  obtain ⟨hnb, hib, hzb⟩ := finite_of_normalise hb
  simp [floatDiv, hna, hia, hza, hnb, hib, hzb]

end Operands

/-! ### The product path -/

theorem mul_zpow_mul_zpow (q : ℚ) (i j : ℤ) : q * (2 : ℚ) ^ i * (2 : ℚ) ^ j = q * (2 : ℚ) ^ (i + j) := by
  rw [mul_assoc, ← zpow_add₀ two_ne_zero]

/-- The exact product from the significands' product. -/
theorem abs_val_mul_of_normalise {a b : B32} {x y : Nat × Int} (ha : normalise a = some x) (hb : normalise b = some y) :
    |val a * val b| = ((x.1 * y.1 : ℕ) : ℚ) * (2 : ℚ) ^ (x.2 + y.2 - 46) := by
  rw [abs_mul, abs_val_of_normalise ha, abs_val_of_normalise hb, mul_mul_mul_comm, ← zpow_add₀ two_ne_zero]
  push_cast
  congr 2
  ring

/-- A number of `p + 1` bits counted in units of `2 ^ (e - p)` has exponent `e`. -/
theorem exponent_of_nat_bounds {N p : ℕ} (hlow : 2 ^ p ≤ N) (hhigh : N < 2 ^ (p + 1)) (e : ℤ) :
    (2 : ℚ) ^ e ≤ (N : ℚ) * 2 ^ (e - p) ∧ (N : ℚ) * 2 ^ (e - p) < 2 ^ (e + 1) := by
  have hlow' : (2 : ℚ) ^ (p : ℤ) ≤ N := by exact_mod_cast hlow
  have hhigh' : (N : ℚ) < 2 ^ ((p + 1 : ℕ) : ℤ) := by rw [zpow_natCast]; exact_mod_cast hhigh
  have h1 := zpow_add_le_mul_zpow hlow' (e - p)
  have h2 := mul_zpow_lt_zpow_add hhigh' (e - p)
  rw [add_sub_cancel] at h1
  rw [show ((p + 1 : ℕ) : ℤ) + (e - p) = e + 1 by push_cast; ring] at h2
  exact ⟨h1, h2⟩

/-- Settles O54: the 48-bit product has its leading bit at place 46 or 47, and the accumulator holds it exactly. -/
theorem significandProductMeetsTheProduct : Obligations.SignificandProductMeetsTheProduct := by
  intro uf nan a b x y ha hb
  obtain ⟨hx0, hx1⟩ := normalise_bounds ha
  obtain ⟨hy0, hy1⟩ := normalise_bounds hb
  have hlow : 2 ^ 46 ≤ x.1 * y.1 := by simpa [← pow_add] using Nat.mul_le_mul hx0 hy0
  have hhigh : x.1 * y.1 < 2 ^ 48 := by simpa [← pow_add] using Nat.mul_lt_mul'' hx1 hy1
  have hq := (product_value a b).trans (abs_val_mul_of_normalise ha hb)
  have hpos := Nat.mul_pos (unitsAbs_pos_of_normalise ha) (unitsAbs_pos_of_normalise hb)
  rw [floatMul_of_normalise ha hb, mulPath]
  generalize x.1 * y.1 = p at hlow hhigh hq
  generalize x.2 + y.2 = e at hq
  split_ifs with hp
  · obtain ⟨h1, h2⟩ := exponent_of_nat_bounds hlow hp e
    refine packAcc_eq_roundPack_of_holds _ _ _ hpos (by simp) hq h1 h2 ?_
    convert Acc.holds_ofShifted_nat (p <<< 1) 22 using 1
    rw [mul_zpow_mul_zpow, Nat.shiftLeft_eq]
    push_cast
    rw [show e - 46 + (23 - e) = -23 by ring]
    ring
  · obtain ⟨h1, h2⟩ := exponent_of_nat_bounds (not_lt.mp hp) hhigh (e + 1)
    push_cast at h1 h2
    rw [show e + 1 - 47 = e - 46 by ring] at h1 h2
    refine packAcc_eq_roundPack_of_holds _ _ _ hpos (by simp) hq h1 h2 ?_
    convert Acc.holds_ofShifted_nat p 22 using 1
    rw [mul_zpow_mul_zpow, show e - 46 + (23 - (e + 1)) = -24 by ring]
    ring

/-! ### The long division -/

/-- The quotient bits of R203 are those of the quotient, and the remainder is doubled once more. -/
theorem divDigits_eq (mb : Nat) : ∀ (k q r : Nat), r < 2 * mb →
    divDigits mb (k + 1) q r = (q * 2 ^ (k + 1) + r * 2 ^ k / mb, 2 * (r * 2 ^ k % mb))
  | 0, q, r, h => by
    rw [divDigits]
    split
    next hle =>
      obtain ⟨hquot, hrem⟩ := (Nat.div_mod_unique (a := r) (b := mb) (c := r - mb) (d := 1) (by omega)).mpr
        ⟨by omega, by omega⟩
      rw [divDigits, pow_zero, mul_one, hquot, hrem, zero_add, pow_one, mul_comm]
    next hlt =>
      rw [divDigits, pow_zero, mul_one, Nat.div_eq_of_lt (not_le.mp hlt), Nat.mod_eq_of_lt (not_le.mp hlt), zero_add,
        pow_one, mul_comm, add_zero]
  | k + 1, q, r, h => by
    rw [divDigits]
    split
    next hle =>
      have hsplit : r * 2 ^ (k + 1) = 2 * (r - mb) * 2 ^ k + 2 ^ (k + 1) * mb := by
        obtain ⟨t, rfl⟩ := Nat.exists_eq_add_of_le hle
        rw [Nat.add_sub_cancel_left]
        ring
      rw [divDigits_eq mb k _ _ (by omega), hsplit, Nat.add_mul_div_right _ _ (by omega), Nat.add_mul_mod_self_right]
      congr 1
      ring
    next hlt =>
      have hdouble : r * 2 ^ (k + 1) = 2 * r * 2 ^ k := by ring
      rw [divDigits_eq mb k _ _ (by omega), hdouble]
      congr 1
      ring

/-- 26 quotient bits and the remainder's sticky bit hold the quotient of the significands. -/
theorem holds_divDigits {ma mb : Nat} (h : ma < 2 * mb) :
    Acc.Holds { bits := (divDigits mb 26 0 ma).1, sticky := (divDigits mb 26 0 ma).2 != 0 }
      ((ma : ℚ) / mb * 2 ^ (23 : ℤ)) := by
  have hmb : (0 : ℚ) < mb := by exact_mod_cast (show 0 < mb by omega)
  have hquarters : 4 * ((ma : ℚ) / mb * 2 ^ (23 : ℤ)) = (ma * 2 ^ 25 : ℕ) / mb := by
    push_cast
    ring
  rw [divDigits_eq mb 25 0 ma h, Acc.Holds, hquarters, Rat.floor_natCast_div_natCast, zero_mul, zero_add]
  refine ⟨rfl, ?_⟩
  rw [ne_eq, eq_div_iff hmb.ne', bne_iff_ne, ne_eq, mul_eq_zero_iff_left two_ne_zero, ← Nat.dvd_iff_mod_eq_zero,
    Nat.dvd_iff_div_mul_eq]
  exact_mod_cast Iff.rfl

/-- The exact quotient from the significands' quotient. -/
theorem abs_val_div_of_normalise {a b : B32} {x y : Nat × Int} (ha : normalise a = some x) (hb : normalise b = some y) :
    |val a / val b| = (x.1 : ℚ) / y.1 * (2 : ℚ) ^ (x.2 - y.2) := by
  rw [abs_div, abs_val_of_normalise ha, abs_val_of_normalise hb, mul_div_mul_comm, ← zpow_sub₀ two_ne_zero]
  congr 2
  ring

/-- Long division of significands whose quotient is from 1 to 2 packs the quotient at its exponent. -/
theorem packAcc_divDigits {a b : B32} {x y : Nat × Int} (ha : normalise a = some x) (hb : normalise b = some y)
    (uf : Underflow) (m : Rounding) (s : Bool) {ma : ℕ} {e : ℤ} (hle : y.1 ≤ ma) (hlt : ma < 2 * y.1)
    (hq : (x.1 : ℚ) / y.1 * (2 : ℚ) ^ (x.2 - y.2) = (ma : ℚ) / y.1 * (2 : ℚ) ^ e) :
    packAcc uf m s { bits := (divDigits y.1 26 0 ma).1, sticky := (divDigits y.1 26 0 ma).2 != 0 } e =
      roundPack uf m s { num := unitsAbs a, den := unitsAbs b } := by
  have hy : (0 : ℚ) < y.1 := by exact_mod_cast (show 0 < y.1 by omega)
  have hpow : (0 : ℚ) < 2 ^ e := zpow_pos two_pos e
  have hone : 1 ≤ (ma : ℚ) / y.1 := (one_le_div hy).mpr (by exact_mod_cast hle)
  have htwo : (ma : ℚ) / y.1 < 2 := (div_lt_iff₀ hy).mpr (by exact_mod_cast hlt)
  refine packAcc_eq_roundPack_of_holds _ _ _ (unitsAbs_pos_of_normalise ha) (unitsAbs_pos_of_normalise hb)
    ((quotient_value a b).trans ((abs_val_div_of_normalise ha hb).trans hq)) ?_ ?_ ?_
  · exact le_mul_of_one_le_left hpow.le hone
  · rw [zpow_add_one₀ two_ne_zero, mul_comm _ (2 : ℚ)]
    exact mul_lt_mul_of_pos_right htwo hpow
  · rw [mul_zpow_mul_zpow, add_sub_cancel]
    exact holds_divDigits hlt

/-- Settles O55: doubling a smaller dividend puts the significands' quotient from 1 to 2. -/
theorem longDivisionMeetsTheQuotient : Obligations.LongDivisionMeetsTheQuotient := by
  intro uf m nan a b x y ha hb
  obtain ⟨hx0, hx1⟩ := normalise_bounds ha
  obtain ⟨hy0, hy1⟩ := normalise_bounds hb
  rw [floatDiv_of_normalise ha hb]
  by_cases hlow : x.1 < y.1
  · simp only [divPath, hlow, decide_true, if_true]
    refine packAcc_divDigits ha hb _ _ _ (by omega) (by omega) ?_
    rw [zpow_sub_one₀ two_ne_zero]
    push_cast
    ring
  · simp only [divPath, hlow, decide_false, Bool.false_eq_true, if_false]
    exact packAcc_divDigits ha hb _ _ _ (by omega) (by omega) rfl

/-! ### The integer shift -/

/-- Settles O56: shifted to 24 bits, or right with its sticky bit, the accumulator holds the integer at its exponent. -/
theorem integerShiftMeetsTheConversion : Obligations.IntegerShiftMeetsTheConversion := by
  intro uf s n hn _
  have hq : ((n : ℕ) : ℚ) / (1 : ℕ) = n := by simp
  obtain ⟨hlow, hhigh⟩ := log2_bounds hn
  rw [intToFloat, if_neg hn.ne', intPath]
  generalize Nat.log2 n = p at hlow hhigh
  split_ifs with hp
  · refine packAcc_eq_roundPack_of_holds (v := { num := n, den := 1 }) _ _ _ hn Nat.one_pos hq hlow hhigh ?_
    convert Acc.holds_of_quarters _ using 1
    rw [Nat.shiftLeft_eq, Nat.shiftLeft_eq]
    push_cast
    rw [← zpow_natCast, Nat.cast_sub hp]
    push_cast
    ring
  · refine packAcc_eq_roundPack_of_holds (v := { num := n, den := 1 }) _ _ _ hn Nat.one_pos hq hlow hhigh ?_
    convert Acc.holds_ofShifted_nat (n <<< 2) (p - 23) using 1
    rw [Nat.shiftLeft_eq, ← neg_sub (p : ℤ) 23, zpow_neg, ← div_eq_mul_inv, ← zpow_natCast _ (p - 23),
      Nat.cast_sub (by omega)]
    push_cast
    ring

end Sys2Proof.Machine
end

section
/-! PROOF. The aligned adder (43_float_arith.md R191, R192). Jamming the bits shifted out into the last bit keeps how half the
shifted operand compares with the integers, and so it does for the sum. A sum that renormalises by two or more places
left had its operands at most one place apart, and then nothing was shifted out. -/

namespace Sys2Proof.Machine

/-! ### Comparing alike through the adder -/

section CompareAlike

variable {v w : ℚ}

theorem CompareAlike.add_int (h : CompareAlike v w) (m : ℤ) : CompareAlike (m + v) (m + w) := by
  intro n
  rw [← sub_le_iff_le_add', ← sub_le_iff_le_add', ← le_sub_iff_add_le', ← le_sub_iff_add_le']
  exact_mod_cast h (n - m)

theorem CompareAlike.neg (h : CompareAlike v w) : CompareAlike (-v) (-w) := by
  intro n
  rw [le_neg (b := v), le_neg (b := w), neg_le (a := v), neg_le (a := w)]
  exact_mod_cast (h (-n)).symm

theorem CompareAlike.abs (h : CompareAlike v w) : CompareAlike |v| |w| := by
  intro n
  rw [le_abs, le_abs, abs_le', abs_le', h.le_iff, h.ge_iff, h.neg.le_iff, h.neg.ge_iff]
  exact ⟨Iff.rfl, Iff.rfl⟩

theorem CompareAlike.neg_iff (h : CompareAlike v w) : v < 0 ↔ w < 0 := by
  rw [← not_le, ← not_le]
  exact_mod_cast not_congr (h.le_iff 0)

theorem CompareAlike.eq_zero_iff (h : CompareAlike v w) : v = 0 ↔ w = 0 := by
  rw [le_antisymm_iff, le_antisymm_iff (a := w)]
  exact_mod_cast and_congr (h.ge_iff 0) (h.le_iff 0)

/-- Two values strictly between the same neighbouring integers. -/
theorem CompareAlike.of_gap {t : ℤ} (hv : (t : ℚ) < v) (hv' : v < t + 1) (hw : (t : ℚ) < w) (hw' : w < t + 1) :
    CompareAlike v w := by
  have hle : ∀ {u : ℚ}, (t : ℚ) < u → u < t + 1 → ∀ n : ℤ, ((n : ℚ) ≤ u ↔ n ≤ t) ∧ (u ≤ n ↔ t + 1 ≤ n) := by
    refine fun hu hu' n => ⟨⟨fun h => ?_, fun h => ?_⟩, ⟨fun h => ?_, fun h => ?_⟩⟩
    · exact Int.lt_add_one_iff.mp (by exact_mod_cast h.trans_lt hu')
    · exact (Int.cast_le.mpr h).trans hu.le
    · exact Int.add_one_le_iff.mpr (by exact_mod_cast hu.trans_le h)
    · exact hu'.le.trans (by exact_mod_cast h)
  intro n
  obtain ⟨hv1, hv2⟩ := hle hv hv' n
  obtain ⟨hw1, hw2⟩ := hle hw hw' n
  exact ⟨hv1.trans hw1.symm, hv2.trans hw2.symm⟩

theorem CompareAlike.signed (h : CompareAlike v w) (s : Bool) : CompareAlike (signFactor s * v) (signFactor s * w) := by
  cases s
  · simpa [signFactor] using h
  · simpa [signFactor] using h.neg

end CompareAlike

/-! ### Alignment -/

theorem or_one_eq (n : ℕ) : n ||| 1 = 2 * (n / 2) + 1 := by
  apply Nat.eq_of_testBit_eq
  intro k
  cases k <;> simp [Nat.testBit_succ, Nat.or_div_two, Nat.mul_add_div]

/-- A number whose shifted-out bits are all zero is aligned exactly. -/
theorem alignSmaller_of_exact {sig d : ℕ} (h : 8 * sig % 2 ^ d = 0) :
    (alignSmaller sig d : ℚ) = (8 * sig : ℕ) / (2 ^ d : ℕ) := by
  have hval : alignSmaller sig d = 8 * sig / 2 ^ d := by
    simp [alignSmaller, Acc.ofShifted, Nat.shiftLeft_eq, Nat.shiftRight_eq_div_pow, mul_comm sig, h]
  rw [hval, Nat.cast_div (Nat.dvd_of_mod_eq_zero h) (by positivity)]

/-- Otherwise its last bit is jammed to 1. -/
theorem alignSmaller_of_inexact {sig d : ℕ} (h : 8 * sig % 2 ^ d ≠ 0) :
    alignSmaller sig d = 2 * (8 * sig / 2 ^ d / 2) + 1 := by
  simp [alignSmaller, Acc.ofShifted, Nat.shiftLeft_eq, Nat.shiftRight_eq_div_pow, mul_comm sig, h, or_one_eq]

/-- Half of the aligned operand compares with the integers as half of the exact one does. -/
theorem compareAlike_alignSmaller (sig d : ℕ) :
    CompareAlike ((alignSmaller sig d : ℚ) / 2) ((8 * sig : ℕ) / (2 ^ d : ℕ) / 2) := by
  by_cases h : 8 * sig % 2 ^ d = 0
  · rw [alignSmaller_of_exact h]
    exact .of_eq rfl
  rw [alignSmaller_of_inexact h]
  have hdiv := Nat.div_add_mod (8 * sig) (2 ^ d)
  have hmod : 8 * sig % 2 ^ d < 2 ^ d := Nat.mod_lt _ (by positivity)
  have hD : (0 : ℚ) < (2 ^ d : ℕ) := by exact_mod_cast (show 0 < 2 ^ d by positivity)
  generalize 2 ^ d = D at *
  generalize 8 * sig = N at *
  have ht : N / D = 2 * (N / D / 2) + N / D % 2 := (Nat.div_add_mod _ _).symm
  generalize N / D / 2 = t at *
  have hlow : ((2 * t : ℕ) : ℚ) < N / D := by
    rw [lt_div_iff₀ hD]
    have : 2 * t * D < N := by
      have : 2 * t * D ≤ D * (N / D) := by
        rw [mul_comm D]
        exact Nat.mul_le_mul_right _ (by omega)
      omega
    exact_mod_cast this
  have hhigh : (N : ℚ) / D < (2 * t + 2 : ℕ) := by
    rw [div_lt_iff₀ hD]
    have : N < (2 * t + 2) * D := by
      have : D * (N / D) + D ≤ (2 * t + 2) * D := by
        rw [← Nat.mul_succ, mul_comm D]
        exact Nat.mul_le_mul_right _ (by omega)
      omega
    exact_mod_cast this
  push_cast at hlow hhigh ⊢
  exact .of_gap (t := t) (by push_cast; linarith) (by push_cast; linarith) (by push_cast; linarith)
    (by push_cast; linarith)

/-! ### Renormalisation -/

/-- `N` stands for the magnitude `T`: half of it compares alike, and below 2^25 it is exact. -/
def StandsFor (N : ℕ) (T : ℚ) : Prop := CompareAlike ((N : ℚ) / 2) (T / 2) ∧ ((N : ℚ) = T ∨ 2 ^ 25 ≤ N)

/-- The magnitude has the length of the number that stands for it. -/
theorem StandsFor.log2_bounds {N : ℕ} {T : ℚ} (h : StandsFor N T) (hN : 0 < N) :
    (2 : ℚ) ^ (Nat.log2 N : ℤ) ≤ T ∧ T < (2 : ℚ) ^ ((Nat.log2 N : ℤ) + 1) := by
  obtain ⟨halike, rfl | hbig⟩ := h
  · exact Machine.log2_bounds hN
  obtain ⟨l, hl⟩ : ∃ l, Nat.log2 N = l + 1 := by
    have := (Nat.le_log2 hN.ne').mpr hbig
    exact ⟨Nat.log2 N - 1, by omega⟩
  have hlow : (2 : ℚ) ^ (l + 1) ≤ N := by exact_mod_cast hl ▸ Nat.log2_self_le hN.ne'
  have hhigh : (N : ℚ) < 2 ^ (l + 1 + 1) := by exact_mod_cast hl ▸ Nat.lt_log2_self (n := N)
  have h1 := halike.le_iff (2 ^ l)
  have h2 := halike.le_iff (2 ^ (l + 1))
  push_cast at h1 h2
  rw [hl, ← Nat.cast_add_one, zpow_natCast, zpow_natCast]
  rw [pow_succ] at hlow hhigh ⊢
  constructor
  · linarith [h1.mp (by linarith)]
  · by_contra hge
    rw [pow_succ (2 : ℚ) (l + 1)] at hge
    linarith [h2.mpr (by linarith)]

/-- Renormalising and packing a sum packs the magnitude that it stands for, counted in units of 2^(e-26). -/
theorem renormPack_eq_roundPack {v : Ratio} {N : ℕ} {T : ℚ} {e : ℤ} (uf : Underflow) (s : Bool) (hn : 0 < v.num)
    (hd : 0 < v.den) (hN : 0 < N) (h : StandsFor N T) (hlt : T < 2 ^ 28)
    (hq : (v.num : ℚ) / v.den = T * (2 : ℚ) ^ (e - 26)) :
    renormPack uf s N e = roundPack uf .nearestEven s v := by
  obtain ⟨hlow, hhigh⟩ := h.log2_bounds hN
  have hlog : Nat.log2 N < 28 := by
    have : (2 : ℚ) ^ (Nat.log2 N : ℤ) < 2 ^ (28 : ℤ) := hlow.trans_lt (by exact_mod_cast hlt)
    have := (zpow_lt_zpow_iff_right₀ one_lt_two).mp this
    omega
  have hlow' := zpow_add_le_mul_zpow hlow (e - 26)
  have hhigh' := mul_zpow_lt_zpow_add hhigh (e - 26)
  rw [← hq] at hlow' hhigh'
  obtain ⟨halike, hexact⟩ := h
  rw [renormPack]
  split_ifs with hover
  · have hlog27 : Nat.log2 N = 27 := by
      have := (Nat.le_log2 hN.ne').mpr hover
      omega
    rw [hlog27] at hlow' hhigh'
    refine packAcc_eq_roundPack uf _ s hn hd ?_ ?_ (Acc.holds_ofShifted_nat N 2) ?_
    · convert hlow' using 2
      push_cast
      ring
    · convert hhigh' using 2
      push_cast
      ring
    · convert halike.div_nat (d := 4) (by decide) using 1
      · push_cast
        ring
      · rw [hq, mul_zpow_mul_zpow, show e - 26 + (23 - (e + 1)) = -4 by ring]
        push_cast
        ring
  · have hlog26 : Nat.log2 N ≤ 26 := by
      have := (Nat.log2_lt hN.ne').mpr (not_le.mp hover)
      omega
    refine packAcc_eq_roundPack uf _ s hn hd ?_ ?_ (Acc.holds_ofShifted_nat (N <<< (26 - Nat.log2 N)) 1) ?_
    · convert hlow' using 2
      omega
    · convert hhigh' using 2
      omega
    · rw [hq, mul_zpow_mul_zpow, show e - 26 + (23 - (e - (26 - Nat.log2 N : ℕ))) = (26 - Nat.log2 N : ℕ) - 3 by ring,
        zpow_sub₀ two_ne_zero, zpow_natCast, Nat.shiftLeft_eq]
      push_cast
      obtain hT | hbig := hexact
      · rw [hT]
        exact .of_eq (by ring)
      · have hplaces : Nat.log2 N = 25 ∨ Nat.log2 N = 26 := by
          have := (Nat.le_log2 hN.ne').mpr hbig
          omega
        obtain hL | hL := hplaces
        · rw [hL]
          convert halike using 1
          · ring
          · ring
        · rw [hL]
          convert halike.div_nat (d := 2) (by decide) using 1
          · push_cast
            ring
          · push_cast
            ring

/-! ### The aligned sum -/

/-- The sum of the adder: the larger operand at place 26, the smaller one aligned `d` places below it, with their signs. -/
def alignedSum (sB : Bool) (B : Nat) (sC : Bool) (C d : Nat) : Int :=
  (if sB then -((B <<< 3 : Nat) : Int) else (B <<< 3 : Nat)) +
    (if sC then -(alignSmaller C d : Int) else alignSmaller C d)

/-- The end of the adder's path: an exact cancellation is +0, any other sum is renormalised and packed. -/
def packSum (uf : Underflow) (n e : Int) : B32 :=
  if n = 0 then signedZero false else renormPack uf (decide (n < 0)) n.natAbs e

theorem addPath_of_le (uf : Underflow) (sx sy : Bool) {x y : Nat × Int} (h : y.2 ≤ x.2) :
    addPath uf sx x sy y = packSum uf (alignedSum sx x.1 sy y.1 (x.2 - y.2).toNat) x.2 := by
  have hnot : ¬x.2 < y.2 := not_lt.mpr h
  simp only [addPath, hnot, decide_false, Bool.false_eq_true, if_false]
  rfl

theorem addPath_of_lt (uf : Underflow) (sx sy : Bool) {x y : Nat × Int} (h : x.2 < y.2) :
    addPath uf sx x sy y = packSum uf (alignedSum sy y.1 sx x.1 (y.2 - x.2).toNat) y.2 := by
  simp only [addPath, h, decide_true, if_true, packSum, alignedSum, add_comm]
  rfl

/-- What the aligned sum stands for, in units of 2^(e-26). -/
def exactSum (sB : Bool) (B : Nat) (sC : Bool) (C d : Nat) : ℚ :=
  signFactor sB * (8 * B : ℕ) + signFactor sC * ((8 * C : ℕ) / (2 ^ d : ℕ))

theorem cast_signed (s : Bool) (n : ℕ) : ((if s then -(n : Int) else n : Int) : ℚ) = signFactor s * n := by
  cases s <;> simp [signFactor]

section Sum

variable (sB sC : Bool) {B C : Nat} (d : Nat)

theorem cast_alignedSum (B C : Nat) : (alignedSum sB B sC C d : ℚ) =
    signFactor sB * (8 * B : ℕ) + signFactor sC * alignSmaller C d := by
  rw [alignedSum, Int.cast_add, cast_signed, cast_signed, Nat.shiftLeft_eq, mul_comm B]

/-- The larger operand is even, so half of the sum compares alike too. -/
theorem compareAlike_alignedSum (B C : Nat) :
    CompareAlike ((alignedSum sB B sC C d : ℚ) / 2) (exactSum sB B sC C d / 2) := by
  have h := ((compareAlike_alignSmaller C d).signed sC).add_int (if sB then -((4 * B : ℕ) : Int) else (4 * B : ℕ))
  rw [cast_signed] at h
  rw [cast_alignedSum, exactSum]
  convert h using 1
  · push_cast
    ring
  · push_cast
    ring

/-- Where the operands are more than three places apart, the sum is at least 2^25. -/
theorem alignedSum_exact_or_big (hB : 2 ^ 23 ≤ B) (hC : C < 2 ^ 24) :
    (alignedSum sB B sC C d : ℚ) = exactSum sB B sC C d ∨ (2 : ℚ) ^ 25 ≤ |exactSum sB B sC C d| := by
  obtain hd | hd := le_or_gt d 3
  · left
    have hdvd : 2 ^ d ∣ 8 * C := (pow_dvd_pow 2 hd).mul_right C
    rw [cast_alignedSum, alignSmaller_of_exact (Nat.mod_eq_zero_of_dvd hdvd), exactSum]
  · right
    have hB' : (2 : ℚ) ^ 23 ≤ B := by exact_mod_cast hB
    have hC' : (C : ℚ) < 2 ^ 24 := by exact_mod_cast hC
    have hpow : (2 : ℚ) ^ 4 ≤ 2 ^ d := pow_le_pow_right₀ one_le_two hd
    have hsmall : |((8 * C : ℕ) : ℚ) / (2 ^ d : ℕ)| ≤ 2 ^ 23 := by
      rw [abs_of_nonneg (by positivity), div_le_iff₀ (by positivity)]
      push_cast
      linarith
    have h := abs_sub_abs_le_abs_sub (signFactor sB * (8 * B : ℕ)) (-(signFactor sC * ((8 * C : ℕ) / (2 ^ d : ℕ))))
    rw [sub_neg_eq_add, abs_neg, abs_mul, abs_mul, abs_signFactor, abs_signFactor, one_mul, one_mul, Nat.abs_cast] at h
    push_cast at h hsmall
    rw [exactSum]
    push_cast
    linarith

theorem abs_exactSum_lt (hB : B < 2 ^ 24) (hC : C < 2 ^ 24) : |exactSum sB B sC C d| < 2 ^ 28 := by
  have hB' : (B : ℚ) < 2 ^ 24 := by exact_mod_cast hB
  have hC' : (C : ℚ) < 2 ^ 24 := by exact_mod_cast hC
  have hsmall : |((8 * C : ℕ) : ℚ) / (2 ^ d : ℕ)| ≤ (8 * C : ℕ) := by
    rw [abs_of_nonneg (by positivity)]
    exact div_le_self (by positivity) (by exact_mod_cast Nat.one_le_two_pow)
  refine (abs_add_le _ _).trans_lt ?_
  rw [abs_mul, abs_mul, abs_signFactor, abs_signFactor, one_mul, one_mul, Nat.abs_cast]
  push_cast at hsmall ⊢
  linarith

theorem standsFor_natAbs_alignedSum (hB : 2 ^ 23 ≤ B) (hC : C < 2 ^ 24) :
    StandsFor (alignedSum sB B sC C d).natAbs |exactSum sB B sC C d| := by
  have halike := (compareAlike_alignedSum sB sC d B C).abs
  rw [abs_div, abs_div, abs_two] at halike
  rw [StandsFor, Nat.cast_natAbs, Int.cast_abs]
  refine ⟨halike, (alignedSum_exact_or_big sB sC d hB hC).imp (congrArg abs) fun hbig => ?_⟩
  have hhalf := (halike.le_iff (2 ^ 24)).mpr (by push_cast; linarith)
  have hcast : (2 : ℚ) ^ 25 ≤ ((alignedSum sB B sC C d).natAbs : ℕ) := by
    rw [Nat.cast_natAbs, Int.cast_abs]
    push_cast at hhalf
    linarith
  exact_mod_cast hcast

end Sum

/-! ### The adder -/

section Operands

variable {a b : B32} {x y : Nat × Int} (ha : normalise a = some x) (hb : normalise b = some y)

theorem val_eq_signFactor_mul_abs (a : B32) : val a = signFactor (sgn a) * |val a| := by
  rw [abs_val_eq_unitsAbs, ← mul_assoc, ← cast_signed, ← units, ← val_eq_units]

include ha hb

/-- The exact sum of two patterns, from their significands. -/
theorem val_add_of_normalise (h : y.2 ≤ x.2) : val a + val b =
    exactSum (sgn a) x.1 (sgn b) y.1 (x.2 - y.2).toNat * (2 : ℚ) ^ (x.2 - 26) := by
  have hpow : ((2 ^ (x.2 - y.2).toNat : ℕ) : ℚ) = 2 ^ (x.2 - y.2) := by
    rw [Nat.cast_pow, ← zpow_natCast, Int.toNat_of_nonneg (by omega)]
    rfl
  have hx : (2 : ℚ) ^ (x.2 - 23) = 8 * 2 ^ (x.2 - 26) := by
    rw [show x.2 - 23 = 3 + (x.2 - 26) by ring, zpow_add₀ two_ne_zero]
    norm_num
  have hy : (2 : ℚ) ^ (y.2 - 23) = 8 / 2 ^ (x.2 - y.2) * 2 ^ (x.2 - 26) := by
    rw [show y.2 - 23 = 3 - (x.2 - y.2) + (x.2 - 26) by ring, zpow_add₀ two_ne_zero, zpow_sub₀ two_ne_zero]
    norm_num
  rw [val_eq_signFactor_mul_abs a, val_eq_signFactor_mul_abs b, abs_val_of_normalise ha, abs_val_of_normalise hb,
    exactSum, hpow, hx, hy]
  push_cast
  ring

theorem floatAdd_of_normalise (uf : Underflow) (nan : B32) : floatAdd uf nan a b =
    if units a + units b = 0 then signedZero false
    else roundPack uf .nearestEven (decide (units a + units b < 0)) (Ratio.ofUnits (units a + units b).natAbs) := by
  obtain ⟨hna, hia, hza⟩ := finite_of_normalise ha
  obtain ⟨hnb, hib, hzb⟩ := finite_of_normalise hb
  simp [floatAdd, addBody, hna, hia, hza, hnb, hib, hzb]

/-- The adder's path from the operand of larger exponent gives FADD's result. -/
theorem packSum_alignedSum (uf : Underflow) (nan : B32) (h : y.2 ≤ x.2) :
    packSum uf (alignedSum (sgn a) x.1 (sgn b) y.1 (x.2 - y.2).toNat) x.2 = floatAdd uf nan a b := by
  obtain ⟨hx0, hx1⟩ := normalise_bounds ha
  obtain ⟨hy0, hy1⟩ := normalise_bounds hb
  have hsum := val_add_of_normalise ha hb h
  have halike := compareAlike_alignedSum (sgn a) (sgn b) (x.2 - y.2).toNat x.1 y.1
  have hstands := standsFor_natAbs_alignedSum (sgn a) (sgn b) (x.2 - y.2).toNat hx0 hy1
  have hlt := abs_exactSum_lt (sgn a) (sgn b) (x.2 - y.2).toNat hx1 hy1
  generalize alignedSum (sgn a) x.1 (sgn b) y.1 (x.2 - y.2).toNat = n at *
  generalize exactSum (sgn a) x.1 (sgn b) y.1 (x.2 - y.2).toNat = T at *
  have hpos : (0 : ℚ) < 2 ^ (x.2 - 26) := zpow_pos two_pos _
  have hzero : n = 0 ↔ units a + units b = 0 := by
    rw [← val_add_eq_zero_iff, hsum, mul_eq_zero_iff_right hpos.ne']
    simpa using halike.eq_zero_iff
  have hneg : n < 0 ↔ units a + units b < 0 := by
    have hhalf := halike.neg_iff
    rw [div_lt_iff₀ two_pos, div_lt_iff₀ two_pos, zero_mul, Int.cast_lt_zero] at hhalf
    rw [← val_add_neg_iff, hsum, hhalf]
    exact ⟨fun h => mul_neg_of_neg_of_pos h hpos, fun h => neg_of_mul_neg_left h hpos.le⟩
  rw [floatAdd_of_normalise ha hb, packSum]
  simp only [hzero, hneg]
  split_ifs with hcancel
  · rfl
  · refine renormPack_eq_roundPack _ _ (Int.natAbs_pos.mpr hcancel) (by simp [Ratio.ofUnits])
      (Int.natAbs_pos.mpr (mt hzero.mp hcancel)) hstands hlt ?_
    rw [sum_value, hsum, abs_mul, abs_of_pos hpos]

end Operands

/-- Settles O53: the path from the operand of larger exponent, which both orders of the operands come to. -/
theorem alignedAdderMeetsTheSum : Obligations.AlignedAdderMeetsTheSum := by
  intro uf nan a b x y ha hb
  obtain hle | hlt := le_or_gt y.2 x.2
  · rw [addPath_of_le uf _ _ hle, packSum_alignedSum ha hb uf nan hle]
  · rw [addPath_of_lt uf _ _ hlt, packSum_alignedSum hb ha uf nan hlt.le, floatAdd_of_normalise ha hb,
      floatAdd_of_normalise hb ha, add_comm]

end Sys2Proof.Machine
end
